-- ==== Sys2Proof/Word.lean ====
section
/-! DEFINITION. The words of the block: bytes, 32-bit command words, colour channels and exact time. -/

namespace Sys2Proof

/-- A byte, bits 7 (most significant) to 0 (00_scope.md R9). -/
abbrev Byte := BitVec 8

/-- One 32-bit command word (30_encoding.md R80). -/
abbrev Word := BitVec 32

/-- The three colour channels of a pixel (00_scope.md R6). -/
inductive Channel
  | r | g | b
  deriving DecidableEq, Repr, Inhabited

/-- A point in time or a duration: an exact non-negative rational number of seconds
(00_scope.md R9, 92_eei_decisions.md D15). -/
@[ext] structure Time where
  secs : Rat
  nonneg : 0 ≤ secs
  deriving DecidableEq, Repr

/-- The time origin. -/
def Time.zero : Time := ⟨0, le_refl 0⟩

/-- Exact addition, with no rounding. -/
def Time.add (t d : Time) : Time := ⟨t.secs + d.secs, add_nonneg t.nonneg d.nonneg⟩

/-- A non-negative rational as a time. -/
def Time.ofNNRat (q : ℚ≥0) : Time := ⟨q.val, q.property⟩

/-- A whole number of milliseconds. -/
def Time.ofMillis (ms : Nat) : Time := ⟨(ms : Rat) / 1000, by positivity⟩

/-- `t` is not later than `u`. -/
abbrev Time.notAfter (t u : Time) : Prop := t.secs ≤ u.secs

end Sys2Proof
end

