-- ==== Sys2Proof/Syntax.lean ====
section
/-! DEFINITION. The operations of the block, one constructor for each row of spec/opcode_table.json, and the paths a word
can come on (30_encoding.md R82, R83). -/

namespace Sys2Proof

/-- The three paths by which a word reaches the block (30_encoding.md R83). -/
inductive Path
  | cmd | byte | timer
  deriving DecidableEq, Repr

/-- The operations (30_encoding.md R82). A row index and a cell index are naturals as given, unbiased (R81). -/
inductive Instr
  | init
  | bankInit
  | writeRowbuf (cell : Nat) (value : Byte)
  | loadRow (row : Nat)
  | sendRow (row : Nat)
  | displayFull
  | arm
  | tick
  | rxByte (value : Byte)
  deriving DecidableEq, Repr

end Sys2Proof
end

