-- ==== Sys2Proof/WellFormed.lean ====
section
/-! DEFINITION. Which operations have a word: an index operand fits the 8-bit A field (30_encoding.md R80, R81). -/

namespace Sys2Proof

/-- The index operand fits the A field. Operand values that decode but fault are well formed (30_encoding.md R85). -/
def Instr.wellFormed : Instr → Bool
  | .init => true
  | .bankInit => true
  | .writeRowbuf cell _ => decide (cell < 256)
  | .loadRow row => decide (row < 256)
  | .sendRow row => decide (row < 256)
  | .displayFull => true
  | .arm => true
  | .tick => true
  | .rxByte _ => true

end Sys2Proof
end

