-- ==== Sys2Proof/Decode.lean ====
section
/-! DEFINITION. The decoder of command words, total on every word and path (30_encoding.md R84, R86), the encoder written from
the same table (R82, R87), and the reading of an opcode-table word. -/

namespace Sys2Proof

/-- Why a word on a path is illegal (30_encoding.md R84, R83). -/
inductive IllegalReason
  /-- the Z field is not 0 -/
  | reservedField
  /-- the OP value is not in the table -/
  | reservedOpcode
  /-- an A or B field marked "must be 0" is not 0 -/
  | mustBeZero
  /-- the word is not allowed on this path -/
  | wrongPath
  deriving DecidableEq, Repr

/-- The result of decoding: a command term, or Illegal with the reason. -/
inductive Decoded
  | legal (i : Instr)
  | illegal (why : IllegalReason)
  deriving DecidableEq, Repr

/-- OP = w[31:24]. -/
def opField (w : Word) : Byte := w.extractLsb' 24 8
/-- A = w[23:16]. -/
def aField (w : Word) : Byte := w.extractLsb' 16 8
/-- Z = w[15:8]. -/
def zField (w : Word) : Byte := w.extractLsb' 8 8
/-- B = w[7:0]. -/
def bField (w : Word) : Byte := w.extractLsb' 0 8

/-- A word is accepted if its fields and its path are those the table asks for; otherwise the reason is named. -/
def accept (fieldsZero : Bool) (path wanted : Path) (i : Instr) : Decoded :=
  if fieldsZero = false then .illegal .mustBeZero
  else if path = wanted then .legal i
  else .illegal .wrongPath

/-- The decode procedure of 30_encoding.md R86. -/
def decode (path : Path) (w : Word) : Decoded :=
  let a := aField w
  let b := bField w
  if zField w ≠ 0#8 then .illegal .reservedField
  else match (opField w).toNat with
    | 0x01 => accept (a == 0#8 && b == 0#8) path .cmd .init
    | 0x02 => accept (a == 0#8 && b == 0#8) path .cmd .bankInit
    | 0x03 => accept true path .cmd (.writeRowbuf a.toNat b)
    | 0x04 => accept (b == 0#8) path .cmd (.loadRow a.toNat)
    | 0x05 => accept (b == 0#8) path .cmd (.sendRow a.toNat)
    | 0x06 => accept (a == 0#8 && b == 0#8) path .cmd .displayFull
    | 0x07 => accept (a == 0#8 && b == 0#8) path .cmd .arm
    | 0x08 => accept (a == 0#8 && b == 0#8) path .timer .tick
    | 0x10 => accept (a == 0#8) path .byte (.rxByte b)
    | _ => .illegal .reservedOpcode

/-- The word OP << 24 | A << 16 | B, with Z = 0 (30_encoding.md R80, R87). -/
def packWord (op a b : Byte) : Word := op ++ a ++ 0#8 ++ b

/-- The operation code of each operation (30_encoding.md R82). -/
def opcode : Instr → Byte
  | .init => 0x01#8
  | .bankInit => 0x02#8
  | .writeRowbuf _ _ => 0x03#8
  | .loadRow _ => 0x04#8
  | .sendRow _ => 0x05#8
  | .displayFull => 0x06#8
  | .arm => 0x07#8
  | .tick => 0x08#8
  | .rxByte _ => 0x10#8

/-- The A operand of each operation, 0 where the table says "must be 0" (log 13). -/
def aOperand : Instr → Byte
  | .init => 0#8
  | .bankInit => 0#8
  | .writeRowbuf cell _ => BitVec.ofNat 8 cell
  | .loadRow row => BitVec.ofNat 8 row
  | .sendRow row => BitVec.ofNat 8 row
  | .displayFull => 0#8
  | .arm => 0#8
  | .tick => 0#8
  | .rxByte _ => 0#8

/-- The B operand of each operation, 0 where the table says "must be 0". -/
def bOperand : Instr → Byte
  | .init => 0#8
  | .bankInit => 0#8
  | .writeRowbuf _ value => value
  | .loadRow _ => 0#8
  | .sendRow _ => 0#8
  | .displayFull => 0#8
  | .arm => 0#8
  | .tick => 0#8
  | .rxByte value => value

/-- The word of an operation. -/
def encode (i : Instr) : Word := packWord (opcode i) (aOperand i) (bOperand i)

/-- The path that may present an operation (30_encoding.md R82, the issuer column). -/
def issuePath : Instr → Path
  | .init => .cmd
  | .bankInit => .cmd
  | .writeRowbuf _ _ => .cmd
  | .loadRow _ => .cmd
  | .sendRow _ => .cmd
  | .displayFull => .cmd
  | .arm => .cmd
  | .tick => .timer
  | .rxByte _ => .byte

/-- The path on which a bare word is presented when it is to run: the timer path carries the TICK word only, the byte port
carries words with RX_BYTE's operation code, the command port the rest (30_encoding.md R83; log 1). -/
def naturalPath (w : Word) : Path :=
  if w = 0x08000000#32 then .timer
  else if opField w = 0x10#8 then .byte
  else .cmd

/-- The instruction of a decoding, if legal. -/
def Decoded.instr? : Decoded → Option Instr
  | .legal i => some i
  | .illegal _ => none

/-- The word that an opcode-table value of `nbits` bits stands for; the bits above `nbits` are 0. -/
def tableWord (nbits w : Nat) : Word := BitVec.ofNat 32 (w % 2 ^ nbits)

/-- The instruction the decoder reads from an opcode-table word, on the path the table gives its row. A value that does not
fit one 32-bit word is refused. -/
def decodeTableWord (nbits w : Nat) : Option Instr :=
  if w < 2 ^ 32 then (decode (naturalPath (tableWord nbits w)) (tableWord nbits w)).instr?
  else none

end Sys2Proof
end

