-- ==== Sys2Proof/Config.lean ====
section
/-! DEFINITION. What is fixed for the machine (00_scope.md R6), and the free values: the OPEN parameters of R7 and the
choices the spec leaves to the environment. A free value is an opaque constant: nothing can be proved of which value it is. -/

namespace Sys2Proof

/-! The named constants of 00_scope.md R6 (93_implementation_defined.md U12; log 14). -/

abbrev Config.rows : Nat := 8
abbrev Config.cols : Nat := 8
abbrev Config.channels : Nat := 3
abbrev Config.frameBytes : Nat := 192
abbrev Config.rowBytes : Nat := 24
abbrev Config.rowBits : Nat := 192
abbrev Config.bankInitBits : Nat := 144
abbrev Config.stabDelayMs : Nat := 100
abbrev Config.poolCap : Nat := 3
abbrev Config.blankAfterPixel : Nat := 5
abbrev Config.rowLines : Nat := 8
abbrev Config.resyncByte : Byte := 0xFF#8

/-- A byte offset inside a frame (20_memory.md R51). -/
abbrev Offset := Fin Config.frameBytes

/-- A frame: one byte for each offset (00_scope.md R11). -/
abbrev Frame := Offset → Byte

/-- Who goes first when a tick is due and a command waits (42_row_scan.md R166). -/
inductive Turn
  | tick | command
  deriving DecidableEq, Repr, Inhabited

/-- What the environment does in its own step: the command issuer writes a word to the command port, or the serial line brings
a word to the byte port (00_scope.md R8 (3), (4); 30_encoding.md R83). -/
inductive Input
  | command (w : Word)
  | serial (w : Word)
  deriving DecidableEq, Repr

/-! The parameters of 00_scope.md R7. -/

/-- TARGET_FPS: any positive natural (00_scope.md R7, 92_eei_decisions.md D15; log 11). -/
opaque Config.frameRate : ℕ+

/-- TARGET_FPS as a natural. -/
abbrev Config.targetFps : Nat := Config.frameRate

/-- The default the spec gives for TARGET_FPS. -/
abbrev Config.defaultFps : Nat := 60

/-- The gamma parameter: a total function of channel and value (40_sequencer.md R114, D9; log 3). -/
opaque Config.gamma : Channel → Byte → Byte

/-- Power-on contents of slot 0 (10_state.md R29, D10; log 2). -/
opaque Config.initialCurrent : Frame

/-- Power-on contents of slot 1 (10_state.md R29, D10; log 2). -/
opaque Config.initialReceive : Frame

/-- Power-on contents of slot 2 (10_state.md R29, D10; log 2). -/
opaque Config.initialFree : Frame

/-- How long after the end of ARM the first tick is due (42_row_scan.md R163, D14; log 5). -/
opaque Config.firstDelay : ℚ≥0

/-- A frame with a non-zero byte at `spot`; every frame that is not blank has this form
(`Laws.patterned_covers`). -/
def Config.patterned (spot : Offset) (level : Fin 255) (other : Frame) : Frame :=
  fun o => if o = spot then BitVec.ofNat 8 (level.val + 1) else other o

/-- A position of freshPattern that holds a non-zero byte (D11; log 4). -/
opaque Config.freshSpot : Offset

/-- That byte, less one (D11; log 4). -/
opaque Config.freshLevel : Fin 255

/-- The other bytes of freshPattern (D11; log 4). -/
opaque Config.freshOther : Frame

/-- The parameter freshPattern, with its premise that it is not all zero (41_host_port.md R144). -/
def Config.freshPattern : Frame :=
  Config.patterned Config.freshSpot Config.freshLevel Config.freshOther

/-! Free choices of the environment, one for each moment. -/

/-- The time that passes between the `k`-th step and the next (42_row_scan.md R166, U9, U10; log 6). -/
opaque Config.elapsed : Nat → ℚ≥0

/-- After how many actions an operation that runs from moment `k` on is next suspended; none: it runs to its end
(20_memory.md R62, 60_exceptions.md R196; log 8). -/
opaque Config.nextBreak : Nat → Option Nat

/-- The environment's step at moment `k`, if it has one then (00_scope.md R8, 41_host_port.md R150; log 1). -/
opaque Config.nextInput : Nat → Option Input

/-- The order of a due tick and a waiting command from moment `k` on (93_implementation_defined.md U16; log 7). -/
opaque Config.nextTurn : Nat → Turn

end Sys2Proof
end

