-- ==== Sys2Proof/Machine/State.lean ====
section
/-! DEFINITION. The state of the block as plain data (10_state.md R20 to R34), the environment's inputs beside it, the reasons
a step can stop, and the state after power-on (70_reset_and_hazards.md R220). -/

namespace Sys2Proof.Machine

/-- The level of a line (10_state.md R21). -/
inductive Level
  | lo | hi
  deriving DecidableEq, Repr

/-- A row of the matrix: row number less one (10_state.md R26, R35). -/
abbrev Row := Fin Config.rows

/-- A frame slot S0, S1, S2 (10_state.md R29). -/
abbrev Slot := Fin Config.poolCap

/-- A row-buffer cell index (10_state.md R28). -/
abbrev CellIndex := Fin Config.rowBytes

/-- The 13 output lines (10_state.md R21); `row r` is ROW(r + 1). -/
inductive Line
  | clk | sda | lat | en | rst
  | row (r : Row)
  deriving DecidableEq, Repr

/-- The level of each line by its number, none where the block does not drive it (10_state.md R22). -/
abbrev Lines := Vector (Option Level) 13

/-- A line event (00_scope.md R10, R12). -/
inductive Event
  /-- `Config(levels)`: every line is driven at once, by line number (40_sequencer.md R101) -/
  | config (levels : Vector Level 13)
  /-- `Set(L, lv)` (40_sequencer.md R100) -/
  | set (l : Line) (lv : Level)
  /-- `Wait(ms)` (40_sequencer.md R102) -/
  | wait (ms : Nat)
  deriving DecidableEq, Repr

/-- LINE_MODE (10_state.md R23). -/
inductive LineMode
  | unconfigured | outputHighDrive
  deriving DecidableEq, Repr

/-- The fatal fault codes of 60_exceptions.md R190. -/
inductive FaultCode
  | poolExhausted | frameAddr | notReady | reinit | illegalCmd | rearm | rowbufUnwritten | operandRange
  deriving DecidableEq, Repr

/-- What an operation of the display engine has still to do (10_state.md R37). -/
inductive Task
  /-- emit these events, one after another -/
  | emit (es : List Event)
  /-- LINE_MODE <- OutputHighDrive (40_sequencer.md R111) -/
  | configured
  /-- DRV_READY <- true (40_sequencer.md R111) -/
  | ready
  /-- write one cell of ROWBUF (40_sequencer.md R113) -/
  | store (i : CellIndex) (v : Byte)
  /-- copy a row of the current frame into ROWBUF (42_row_scan.md R161) -/
  | load (r : Row)
  /-- copy a row of the current frame into ROWBUF, then send it as that row (40_sequencer.md R118) -/
  | showRow (r : Row)
  /-- set DEADLINE and ARMED (42_row_scan.md R163) -/
  | arm
  /-- the scheduler-side handoff, a critical section (42_row_scan.md R165) -/
  | handoff
  /-- advance NEXTROW and DEADLINE (42_row_scan.md R167) -/
  | advance
  deriving DecidableEq, Repr

/-- Why the machine stops. -/
inductive Fault
  /-- Raised by `step` and by every meaning when FAULT is already set: no agent of the block has a step
  (60_exceptions.md R191). The code and word are those FAULT holds. Safe: the block does nothing either. -/
  | halted (code : FaultCode) (word : Word)
  deriving DecidableEq, Repr

/-- Why an instruction has no meaning. -/
inductive Refusal
  /-- Only for an arm of `exec` that has no meaning yet; no arm uses it now. Safe. -/
  | notModelled (mnemonic : String)
  deriving DecidableEq, Repr

/-- The whole state. -/
structure State where
  /-- LINES, by line number (10_state.md R21, R22). -/
  lines : Lines
  /-- LINE_MODE (R23). -/
  lineMode : LineMode
  /-- DRV_READY (R24). -/
  drvReady : Bool
  /-- ARMED (R25). -/
  armed : Bool
  /-- NEXTROW - 1 (R26, R35). -/
  nextRow : Row
  /-- DEADLINE (R27). -/
  deadline : Option Time
  /-- ROWBUF (R28). -/
  rowbuf : Vector (Option Byte) 24
  /-- The frame store SLOT (R29) at flat addresses slot * 192 + offset (20_memory.md R51): strictly rising addresses, no
  entry equal to what an unlisted address reads as. -/
  mem : List Host.Cell
  /-- CUR (R30). -/
  cur : Slot
  /-- RCV (R30). -/
  rcv : Slot
  /-- PEND (R30). -/
  pend : Option Slot
  /-- FAULT (R32). -/
  fault : Option (FaultCode × Word)
  /-- CURSOR, the host producer's (R33). -/
  cursor : Offset
  /-- TRACE, oldest first (R34). -/
  trace : List Event
  /-- The position inside the operation the display engine is running: what is left of it, nothing between operations
  (R37). -/
  todo : List Task
  /-- The platform time, an input (60_exceptions.md R203; log 6). -/
  now : Time
  /-- Words on the command port, in the order they were written (00_scope.md R8 (3); log 1). -/
  cmdPort : List Word
  /-- Words on the byte port, in the order they arrived (60_exceptions.md R198; log 1). -/
  bytePort : List Word
  /-- The environment's step, if it moves next (00_scope.md R8; log 1). -/
  input : Option Input
  /-- After how many actions the display engine is next suspended, none if its operation runs to the end
  (60_exceptions.md R196; log 8). -/
  breakAfter : Option Nat
  /-- Who goes first when a tick is due and a command waits (42_row_scan.md R166; log 7). -/
  turn : Turn
  /-- Which free values come next (log 1, log 6, log 7, log 8). -/
  moment : Nat
  deriving DecidableEq, Repr

/-- Power-on (70_reset_and_hazards.md R220). Memory lists nothing: the slots hold the OPEN initial frames. The fields
from `now` on are the environment's (DESIGN CHOICE, log 1, log 6, log 7, log 8). -/
def State.reset : State where
  lines := Vector.replicate 13 none
  lineMode := .unconfigured
  drvReady := false
  armed := false
  nextRow := 0
  deadline := none
  rowbuf := Vector.replicate 24 none
  mem := []
  cur := 0
  rcv := 1
  pend := none
  fault := none
  cursor := 0
  trace := []
  todo := []
  now := Time.zero
  cmdPort := []
  bytePort := []
  input := none
  breakAfter := none
  turn := .command
  moment := 0

end Sys2Proof.Machine
end

