-- ==== Sys2Proof/Machine/Operands.lean ====
section
/-! DEFINITION. Operand forms: line numbers, row-select mapping, row and cell indices, frame offsets. -/

namespace Sys2Proof.Machine

/-- The number of a line (10_state.md R21). -/
def lineIndex : Line → Fin 13
  | .clk => 0
  | .sda => 1
  | .lat => 2
  | .en => 3
  | .rst => 4
  | .row r => ⟨5 + r.val, by have := r.isLt; simp only [Config.rows] at this; omega⟩

/-- The level of a bit on a line. -/
def levelOf : Bool → Level
  | true => .hi
  | false => .lo

/-- The 1-based number of a row. -/
def rowNumber (r : Row) : Nat := r.val + 1

/-- A 1-based row number as a row; none outside 1..8 (20_memory.md R53). -/
def rowOf? (n : Nat) : Option Row :=
  if h : 1 ≤ n ∧ n ≤ Config.rows then some ⟨n - 1, by omega⟩ else none

/-- A row-buffer cell index; none outside 0..23 (40_sequencer.md R113). -/
def cellOf? (i : Nat) : Option CellIndex :=
  if h : i < Config.rowBytes then some ⟨i, h⟩ else none

/-- The row-select line of a row index; an index outside 1..8 falls back to the last line (40_sequencer.md R106). -/
def rowLine (i : Nat) : Line :=
  match rowOf? i with
  | some r => .row r
  | none => .row 7

/-- The line of the previously lit row (40_sequencer.md R107, 90_conflicts.md C1). -/
def prevLine (r : Nat) : Line := rowLine ((r + 7) % 8)

/-- The place of a channel within a pixel: 0 r, 1 g, 2 b (20_memory.md R52). -/
def channelIndex : Channel → Fin 3
  | .r => 0
  | .g => 1
  | .b => 2

/-- The channel of a cell or offset (20_memory.md R52). -/
def channelOf (n : Nat) : Channel :=
  match n % 3 with
  | 0 => .r
  | 1 => .g
  | _ => .b

/-- A column of the matrix: column number less one. -/
abbrev Col := Fin Config.cols

/-- The byte offset of a channel of a pixel (20_memory.md R52). -/
def frameOffset (row : Row) (col : Col) (ch : Channel) : Offset :=
  ⟨(row.val * 8 + col.val) * 3 + (channelIndex ch).val, by
    have hr := row.isLt
    have hc := col.isLt
    have hh := (channelIndex ch).isLt
    simp only [Config.rows, Config.cols, Config.frameBytes] at *
    omega⟩

/-- The byte offset of cell `i` of a row (20_memory.md R53). -/
def rowOffset (row : Row) (i : CellIndex) : Offset :=
  ⟨row.val * 24 + i.val, by
    have hr := row.isLt
    have hi := i.isLt
    simp only [Config.rows, Config.rowBytes, Config.frameBytes] at *
    omega⟩

/-- The row-buffer cell of a channel of a column (10_state.md R28). -/
def laneCell (col : Col) (ch : Channel) : CellIndex :=
  ⟨col.val * 3 + (channelIndex ch).val, by
    have hc := col.isLt
    have hh := (channelIndex ch).isLt
    simp only [Config.cols, Config.rowBytes] at *
    omega⟩

/-- The flat address of a byte of the frame store (20_memory.md R51). -/
def flatAddr (slot : Slot) (off : Offset) : Nat := slot.val * Config.frameBytes + off.val

end Sys2Proof.Machine
end

