-- ==== Sys2Proof/Machine/Ops.lean ====
section
/-! DEFINITION. The named operations over memory, lines and roles, and the raising of a fatal fault. -/

namespace Sys2Proof.Machine

/-! The frame store. -/

/-- What an unlisted address of the frame store reads as: the OPEN power-on contents of the slots (10_state.md R29; log 2). -/
def unlisted (a : Nat) : Byte :=
  if h : a < 192 then Config.initialCurrent ⟨a, h⟩
  else if h : a - 192 < 192 then Config.initialReceive ⟨a - 192, h⟩
  else if h : a - 384 < 192 then Config.initialFree ⟨a - 384, h⟩
  else 0#8

/-- The byte at a flat address. -/
def memRead : List Host.Cell → Nat → Byte
  | [], a => unlisted a
  | (k, v) :: rest, a => if k = a then v else memRead rest a

/-- Lists a byte at its place among rising addresses. -/
def memInsert : List Host.Cell → Nat → Byte → List Host.Cell
  | [], a, b => [(a, b)]
  | (k, v) :: rest, a, b =>
    if a < k then (a, b) :: (k, v) :: rest
    else if a = k then (a, b) :: rest
    else (k, v) :: memInsert rest a b

/-- Unlists an address. -/
def memErase (m : List Host.Cell) (a : Nat) : List Host.Cell := m.filter fun c => c.1 ≠ a

/-- Writes a byte, keeping the canonical form: the unlisted value is not listed. -/
def memWrite (m : List Host.Cell) (a : Nat) (b : Byte) : List Host.Cell :=
  if b = unlisted a then memErase m a else memInsert m a b

/-- The canonical form of memory: rising addresses inside the frame store, none holding its unlisted value. -/
def memWf (m : List Host.Cell) : Bool :=
  decide (m.Pairwise fun x y => x.1 < y.1) && m.all fun c => decide (c.1 < 576) && (c.2 != unlisted c.1)

/-- Writes every byte of a slot. -/
@[irreducible] def memFill (m : List Host.Cell) (slot : Slot) (f : Frame) : List Host.Cell :=
  (List.finRange Config.frameBytes).foldl (fun m o => memWrite m (flatAddr slot o) (f o)) m

/-- FrameRead(s, off) (00_scope.md R10). -/
def State.frameRead (s : State) (slot : Slot) (off : Offset) : Byte := memRead s.mem (flatAddr slot off)

/-- FrameWrite(s, off, v) (00_scope.md R10). -/
def State.frameWrite (s : State) (slot : Slot) (off : Offset) (v : Byte) : State :=
  { s with mem := memWrite s.mem (flatAddr slot off) v }

/-- The row accessor `row(F, n)` of the current frame: its 24 bytes in order (20_memory.md R53). -/
def State.frameRow (s : State) (r : Row) : Vector Byte 24 :=
  Vector.ofFn fun i => s.frameRead s.cur (rowOffset r i)

/-! The row buffer. -/

/-- `loadRowSeq(r)`: row r of the current frame into ROWBUF (42_row_scan.md R161). -/
def State.loadRow (s : State) (r : Row) : State := { s with rowbuf := (s.frameRow r).map some }

/-- The 24 bytes of ROWBUF, if every cell is written (10_state.md R28). -/
def State.rowbufBytes? (s : State) : Option (Vector Byte 24) :=
  if h : ∀ i : Fin 24, (s.rowbuf[i.val]).isSome then some (Vector.ofFn fun i => (s.rowbuf[i.val]).get (h i)) else none

/-! The lines. -/

/-- The level of a line. -/
def lineLevel (ls : Lines) (l : Line) : Option Level := ls[(lineIndex l).val]

/-- LINES(L). -/
def State.line (s : State) (l : Line) : Option Level := lineLevel s.lines l

/-- What one event does to the lines (40_sequencer.md R100 to R102). -/
def applyEvent (ls : Lines) : Event → Lines
  | .config levels => levels.map some
  | .set l lv => ls.set (lineIndex l).val (some lv)
  | .wait _ => ls

/-- What a list of events does to the lines. -/
def runLines (ls : Lines) (es : List Event) : Lines := es.foldl applyEvent ls

/-- The least number of milliseconds an event list takes (40_sequencer.md R102). -/
def waitedMs : List Event → Nat
  | [] => 0
  | .wait ms :: rest => ms + waitedMs rest
  | .config _ :: rest => waitedMs rest
  | .set _ _ :: rest => waitedMs rest

/-- Emits an event list: TRACE records every event, LINES follow, and a Wait takes at least its time (10_state.md R34). -/
def State.emit (s : State) (es : List Event) : State :=
  { s with
    lines := runLines s.lines es
    trace := s.trace ++ es
    now := s.now.add (Time.ofMillis (waitedMs es)) }

/-! The pool (20_memory.md R58). -/

/-- A slot holds no role (10_state.md R30). -/
def State.isFree (s : State) (x : Slot) : Bool := x ≠ s.cur && x ≠ s.rcv && s.pend ≠ some x

/-- FREE, lowest slot first (10_state.md R30). -/
def State.freeSlots (s : State) : List Slot := [0, 1, 2].filter s.isFree

/-- Alloc(): the lowest-numbered free slot, none if FREE is empty. -/
def State.alloc (s : State) : Option Slot := s.freeSlots.head?

/-! Fatal faults. -/

/-- The number of a fault code (60_exceptions.md R190). -/
def faultNumber : FaultCode → Nat
  | .poolExhausted => 1
  | .frameAddr => 2
  | .notReady => 3
  | .reinit => 4
  | .illegalCmd => 5
  | .rearm => 6
  | .rowbufUnwritten => 7
  | .operandRange => 8

/-- `raise Fault(code)` for the operation with word `w`: FAULT is set and nothing else changes (10_state.md R32,
60_exceptions.md R190). It is the block's only exception; there is no handler and no return from it (R191, R194, R200). -/
def State.raise (s : State) (code : FaultCode) (w : Word) : State := { s with fault := some (code, w) }

/-- Step (1) of 40_sequencer.md R108: with FAULT set there is no step (60_exceptions.md R191). -/
def whenRunning (s : State) (body : Host.Outcome State Fault Refusal) : Host.Outcome State Fault Refusal :=
  match s.fault with
  | some (code, w) => .fault (.halted code w)
  | none => body

/-- A word that decodes to Illegal raises ILLEGAL_CMD when it is taken (40_sequencer.md R108 (2), 30_encoding.md R86). -/
def takeIllegal (s : State) (w : Word) : Host.Outcome State Fault Refusal :=
  whenRunning s (.next (s.raise .illegalCmd w))

end Sys2Proof.Machine
end

