-- ==== Sys2Proof/Machine/Exchange.lean ====
section
/-! DEFINITION. The exchange: the two critical sections that move slots between roles, each one atomic (20_memory.md R60). -/

namespace Sys2Proof.Machine

/-- `handoffSchedulerSide()` (42_row_scan.md R165): a pending frame becomes current, the old current slot becomes free. -/
def State.handoffSchedulerSide (s : State) : State :=
  match s.pend with
  | some p => { s with cur := p, pend := none }
  | none => s

/-- The first two actions of `handoffDecoderSide()` (41_host_port.md R143): a superseded pending slot becomes free, the
completed slot becomes pending. -/
def State.installPending (s : State) : State := { s with pend := some s.rcv }

/-- `freshFill()` (41_host_port.md R144). -/
def State.freshFill (s : State) : State := { s with mem := memFill s.mem s.rcv Config.freshPattern }

end Sys2Proof.Machine
end

