-- ==== Sys2Proof/Machine/HostPort.lean ====
section
/-! DEFINITION. The host frame producer (41_host_port.md): RX_BYTE. -/

namespace Sys2Proof.Machine

/-- The completion of a frame: `handoffDecoderSide()`, CURSOR <- 0, `freshFill()` (41_host_port.md R141, R143, R144). With no
free slot Alloc raises POOL_EXHAUSTED at that point (20_memory.md R58; log 10). -/
def State.completeFrame (s : State) (w : Word) : State :=
  match s.installPending.alloc with
  | some slot => State.freshFill { s.installPending with rcv := slot, cursor := 0 }
  | none => s.installPending.raise .poolExhausted w

/-- RX_BYTE (41_host_port.md R141). -/
def execRxByte (value : Byte) (s : State) : Host.Outcome State Fault Refusal :=
  whenRunning s
    (if value = Config.resyncByte then .next { s with cursor := 0 }
     else if h : s.cursor.val + 1 < Config.frameBytes then
       .next { s.frameWrite s.rcv s.cursor value with cursor := ⟨s.cursor.val + 1, h⟩ }
     else .next ((s.frameWrite s.rcv s.cursor value).completeFrame (encode (.rxByte value))))

end Sys2Proof.Machine
end

