-- ==== Sys2Proof/Machine/Sequences.lean ====
section
/-! DEFINITION. The event lists of the line sequencer (40_sequencer.md section 1). -/

namespace Sys2Proof.Machine

/-- `shiftBit(v)` (40_sequencer.md R103). -/
def shiftBit (v : Bool) : List Event := [.set .sda (levelOf v), .set .clk .hi, .set .clk .lo]

/-- The bits of a byte, most significant first (40_sequencer.md R104). -/
def byteBits (x : Byte) : List Bool := [7, 6, 5, 4, 3, 2, 1, 0].map fun i => x.getLsbD i

/-- `shiftByte(x)` (40_sequencer.md R104). -/
def shiftByte (x : Byte) : List Event := (byteBits x).flatMap shiftBit

/-- `latchPulse()` (40_sequencer.md R105). -/
def latchPulse : List Event := [.set .lat .lo, .set .lat .hi]

/-- `bankInitSeq()` (40_sequencer.md R109). -/
@[irreducible] def bankInitSeq : List Event :=
  [.set .en .lo] ++ (List.replicate Config.bankInitBits true).flatMap shiftBit ++ latchPulse ++ [.set .en .hi]

/-- The levels of the Config event: EN and LAT high, all others low (10_state.md R21, 40_sequencer.md R101). -/
def configLevels : Vector Level 13 :=
  ((Vector.replicate 13 Level.lo).set (lineIndex .lat).val .hi).set (lineIndex .en).val .hi

/-- The events of INIT after its Config event (40_sequencer.md R111). -/
@[irreducible] def initTail : List Event := [.wait Config.stabDelayMs, .set .rst .hi] ++ bankInitSeq

/-- The events of INIT (40_sequencer.md R111). -/
@[irreducible] def initSeq : List Event := .config configLevels :: initTail

/-- The three bytes sent for a column: Blue, Green, Red, each gamma-corrected (20_memory.md R56, 40_sequencer.md R114). -/
def pixelBytes (px : Vector Byte 24) (col : Col) : List Byte :=
  [Config.gamma .b px[(laneCell col .b).val], Config.gamma .g px[(laneCell col .g).val],
    Config.gamma .r px[(laneCell col .r).val]]

/-- The k-th pixel of the reversed iteration, k = j + 1, column 9 - k, and the blanking after the 5th
(40_sequencer.md R110). -/
def pixelSeq (r : Nat) (px : Vector Byte 24) (j : Col) : List Event :=
  (pixelBytes px j.rev).flatMap shiftByte
    ++ (if j.val + 1 = Config.blankAfterPixel then [.set (prevLine r) .lo] else [])

/-- `sendRowSeq(r)` for the row-buffer bytes `px` (40_sequencer.md R110). -/
@[irreducible] def sendRowSeq (r : Nat) (px : Vector Byte 24) : List Event :=
  (List.finRange Config.cols).flatMap (pixelSeq r px) ++ latchPulse ++ [.set (rowLine r) .hi]

/-- One row of DISPLAY_FULL: load row r of the current frame, then send it (40_sequencer.md R118). -/
def State.showRow (s : State) (r : Row) : State :=
  (s.loadRow r).emit (sendRowSeq (rowNumber r) (s.frameRow r))

end Sys2Proof.Machine
end

