-- ==== Sys2Proof/Machine/Timer.lean ====
section
/-! DEFINITION. The row interval, the first deadline and the scan counter (42_row_scan.md). -/

namespace Sys2Proof.Machine

/-- The row interval of a frame rate: 1 / (8 × fps) seconds, exactly (42_row_scan.md R164). -/
def rowInterval (fps : Nat) : Time := ⟨1 / (8 * (fps : Rat)), by positivity⟩

/-- DELTA, the row interval of TARGET_FPS (42_row_scan.md R164). -/
def delta : Time := rowInterval Config.targetFps

/-- firstDeadline, for an ARM that ends at `armEnd`: not before it (42_row_scan.md R163, D14; log 5). -/
def firstDeadline (armEnd : Time) : Time := armEnd.add (Time.ofNNRat Config.firstDelay)

/-- The row after `r` in scan order: (n mod 8) + 1 on row numbers (42_row_scan.md R167). -/
def nextRowOf (r : Row) : Row := ⟨(r.val + 1) % 8, Nat.mod_lt _ (by decide)⟩

/-- The last action of ARM (42_row_scan.md R163). -/
def State.armScan (s : State) : State := { s with deadline := some (firstDeadline s.now), armed := true }

/-- Steps 3 and 4 of TICK: NEXTROW advances and the deadline moves on by DELTA from the previous one (42_row_scan.md R167;
log 12). -/
def State.advanceScan (s : State) : State :=
  { s with nextRow := nextRowOf s.nextRow, deadline := s.deadline.map fun d => d.add delta }

end Sys2Proof.Machine
end

