-- ==== Sys2Proof/Machine/Engine.lean ====
section
/-! DEFINITION. The display engine: an operation's checks give a fault or a list of tasks; the engine performs the tasks to the
end, or action by action where it is suspended between two events (10_state.md R37, 20_memory.md R62). -/

namespace Sys2Proof.Machine

/-- What the checks of an operation answer (40_sequencer.md R108). -/
inductive Plan
  /-- the operation raises this fault and does nothing -/
  | raises (code : FaultCode)
  /-- the operation runs, and these are its tasks in order -/
  | runs (tasks : List Task)
  deriving DecidableEq, Repr

/-- Step (4) of 40_sequencer.md R108, for every operation but INIT and RX_BYTE (60_exceptions.md R192). -/
def State.ifReady (s : State) (p : Plan) : Plan := if s.drvReady then p else .raises .notReady

/-- One task, whole. -/
def State.perform (s : State) : Task → State
  | .emit es => s.emit es
  | .configured => { s with lineMode := .outputHighDrive }
  | .ready => { s with drvReady := true }
  | .store i v => { s with rowbuf := s.rowbuf.set i.val (some v) }
  | .load r => s.loadRow r
  | .showRow r => s.showRow r
  | .arm => s.armScan
  | .handoff => s.handoffSchedulerSide
  | .advance => s.advanceScan

/-- Tasks, whole and in order. -/
def State.performAll (s : State) (ts : List Task) : State := ts.foldl State.perform s

/-- An operation run to its end without a suspension, from its checks on; `w` is its word. -/
def State.execute (s : State) (w : Word) (p : Plan) : Host.Outcome State Fault Refusal :=
  whenRunning s (.next (match p with
    | .raises code => s.raise code w
    | .runs tasks => s.performAll tasks))

/-- One action of the operation that is running: one event, or one task that emits none. An event is never cut
(60_exceptions.md R199), nor is the handoff (20_memory.md R60). -/
def State.act (s : State) : State :=
  match s.todo with
  | [] => s
  | .emit [] :: rest => { s with todo := rest }
  | .emit (e :: es) :: rest => { s.emit [e] with todo := .emit es :: rest }
  | .configured :: rest => { s.perform .configured with todo := rest }
  | .ready :: rest => { s.perform .ready with todo := rest }
  | .store i v :: rest => { s.perform (.store i v) with todo := rest }
  | .load r :: rest => { s.perform (.load r) with todo := rest }
  | .showRow r :: rest => { s.loadRow r with todo := .emit (sendRowSeq (rowNumber r) (s.frameRow r)) :: rest }
  | .arm :: rest => { s.perform .arm with todo := rest }
  | .handoff :: rest => { s.perform .handoff with todo := rest }
  | .advance :: rest => { s.perform .advance with todo := rest }

/-- A number of actions. -/
def State.acts : Nat → State → State
  | 0, s => s
  | n + 1, s => acts n s.act

/-- The rest of the operation that is running, to its end. -/
def State.finish (s : State) : State := { s.performAll s.todo with todo := [] }

/-- The running operation goes on, to its end or to its next suspension. With no operation running nothing happens. -/
def State.resume (s : State) : State :=
  match s.breakAfter with
  | none => s.finish
  | some n => State.acts n s

end Sys2Proof.Machine
end

