-- ==== Sys2Proof/Machine/RowScan.lean ====
section
/-! DEFINITION. The operations of the row-scan multiplexer (42_row_scan.md): LOAD_ROW, ARM, TICK. -/

namespace Sys2Proof.Machine

/-- The checks and tasks of LOAD_ROW (42_row_scan.md R162). -/
def State.planLoadRow (row : Nat) (s : State) : Plan :=
  s.ifReady (match rowOf? row with
    | some r => .runs [.load r]
    | none => .raises .frameAddr)

/-- LOAD_ROW (42_row_scan.md R162). -/
def execLoadRow (row : Nat) (s : State) : Host.Outcome State Fault Refusal :=
  s.execute (encode (.loadRow row)) (s.planLoadRow row)

/-- The checks and tasks of ARM (42_row_scan.md R163). -/
def State.planArm (s : State) : Plan := s.ifReady (if s.armed then .raises .rearm else .runs [.arm])

/-- ARM (42_row_scan.md R163). -/
def execArm (s : State) : Host.Outcome State Fault Refusal := s.execute (encode .arm) s.planArm

/-- Step 1 of TICK: the handoff, at a frame boundary only (42_row_scan.md R167). -/
def boundaryTasks (n : Row) : List Task := if rowNumber n = 1 then [.handoff] else []

/-- The checks and tasks of TICK (42_row_scan.md R167; log 12). -/
def State.planTick (s : State) : Plan :=
  s.ifReady (.runs (boundaryTasks s.nextRow ++ [.showRow s.nextRow, .advance]))

/-- TICK (42_row_scan.md R167). -/
def execTick (s : State) : Host.Outcome State Fault Refusal := s.execute (encode .tick) s.planTick

end Sys2Proof.Machine
end

