-- ==== Sys2Proof/Machine/Sequencer.lean ====
section
/-! DEFINITION. The operations of the line sequencer (40_sequencer.md section 2): INIT, BANK_INIT, WRITE_ROWBUF, SEND_ROW,
DISPLAY_FULL. -/

namespace Sys2Proof.Machine

/-- The checks and tasks of INIT (40_sequencer.md R111). -/
def State.planInit (s : State) : Plan :=
  if s.drvReady then .raises .reinit
  else .runs [.emit [.config configLevels], .configured, .emit initTail, .ready]

/-- INIT (40_sequencer.md R111). -/
def execInit (s : State) : Host.Outcome State Fault Refusal := s.execute (encode .init) s.planInit

/-- The checks and tasks of BANK_INIT (40_sequencer.md R112). -/
def State.planBankInit (s : State) : Plan := s.ifReady (.runs [.emit bankInitSeq])

/-- BANK_INIT (40_sequencer.md R112). -/
def execBankInit (s : State) : Host.Outcome State Fault Refusal := s.execute (encode .bankInit) s.planBankInit

/-- The checks and tasks of WRITE_ROWBUF (40_sequencer.md R113). -/
def State.planWriteRowbuf (cell : Nat) (value : Byte) (s : State) : Plan :=
  s.ifReady (match cellOf? cell with
    | some i => .runs [.store i value]
    | none => .raises .operandRange)

/-- WRITE_ROWBUF (40_sequencer.md R113). -/
def execWriteRowbuf (cell : Nat) (value : Byte) (s : State) : Host.Outcome State Fault Refusal :=
  s.execute (encode (.writeRowbuf cell value)) (s.planWriteRowbuf cell value)

/-- The checks and tasks of SEND_ROW (40_sequencer.md R115). No other agent writes ROWBUF, so its bytes are those at the
start. -/
def State.planSendRow (row : Nat) (s : State) : Plan :=
  s.ifReady (match s.rowbufBytes? with
    | some px => .runs [.emit (sendRowSeq row px)]
    | none => .raises .rowbufUnwritten)

/-- SEND_ROW (40_sequencer.md R115). -/
def execSendRow (row : Nat) (s : State) : Host.Outcome State Fault Refusal :=
  s.execute (encode (.sendRow row)) (s.planSendRow row)

/-- The checks and tasks of DISPLAY_FULL (40_sequencer.md R118). -/
def State.planDisplayFull (s : State) : Plan := s.ifReady (.runs ((List.finRange Config.rows).map Task.showRow))

/-- DISPLAY_FULL (40_sequencer.md R118). -/
def execDisplayFull (s : State) : Host.Outcome State Fault Refusal := s.execute (encode .displayFull) s.planDisplayFull

end Sys2Proof.Machine
end

