-- ==== Sys2Proof/Machine/Dispatch.lean ====
section
/-! DEFINITION. One arm for each operation of the block. -/

namespace Sys2Proof.Machine

def exec (i : Instr) (s : State) : Host.Outcome State Fault Refusal :=
  match i with
  | .init => Sys2Proof.Machine.execInit s
  | .bankInit => Sys2Proof.Machine.execBankInit s
  | .writeRowbuf cell value => Sys2Proof.Machine.execWriteRowbuf cell value s
  | .loadRow row => Sys2Proof.Machine.execLoadRow row s
  | .sendRow row => Sys2Proof.Machine.execSendRow row s
  | .displayFull => Sys2Proof.Machine.execDisplayFull s
  | .arm => Sys2Proof.Machine.execArm s
  | .tick => Sys2Proof.Machine.execTick s
  | .rxByte value => Sys2Proof.Machine.execRxByte value s

end Sys2Proof.Machine
end

