-- ==== Sys2Proof/Machine/Fetch.lean ====
section
/-! DEFINITION. Which agent moves next, the word it takes, the environment's own step, and the passing of time between steps
(00_scope.md R8, 42_row_scan.md R166, 60_exceptions.md R195 to R198; log 1, log 6, log 7). -/

namespace Sys2Proof.Machine

/-- A received byte waits for its handler (10_state.md R39 (2)). -/
def State.bytePending (s : State) : Bool := !s.bytePort.isEmpty

/-- The display engine is between operations (10_state.md R37, 42_row_scan.md R166). -/
def State.engineIdle (s : State) : Bool := s.todo.isEmpty

/-- A tick is due: ARMED and now ≥ DEADLINE (10_state.md R39 (1), 42_row_scan.md R166). -/
def State.tickDue (s : State) : Bool :=
  s.armed && match s.deadline with
    | some d => decide (d.notAfter s.now)
    | none => false

/-- The word the row timer presents (30_encoding.md R82, R83). -/
def tickWord : Word := 0x08000000#32

/-- A step of the host frame producer takes the first word of the byte port. -/
def State.fetchByte (s : State) : Option (Path × Word × State) :=
  match s.bytePort with
  | w :: rest => some (.byte, w, { s with bytePort := rest })
  | [] => none

/-- The row timer presents TICK when a tick is due. -/
def State.fetchTick (s : State) : Option (Path × Word × State) :=
  if s.tickDue then some (.timer, tickWord, s) else none

/-- The display engine takes the first word of the command port. -/
def State.fetchCommand (s : State) : Option (Path × Word × State) :=
  match s.cmdPort with
  | w :: rest => some (.cmd, w, { s with cmdPort := rest })
  | [] => none

/-- The word the display engine takes between operations: the tick or the command, in the free order (42_row_scan.md R166). -/
def State.fetchEngine (s : State) : Option (Path × Word × State) :=
  match s.turn with
  | .tick => s.fetchTick.or s.fetchCommand
  | .command => s.fetchCommand.or s.fetchTick

/-- What is taken next, and the state without it: a waiting byte first, even in the middle of an operation (60_exceptions.md
R196, R198); then, between operations only, a tick or a command. none: no agent takes a word. -/
def State.fetch (s : State) : Option (Path × Word × State) :=
  s.fetchByte.or (if s.engineIdle then s.fetchEngine else none)

/-- The environment's step: the command issuer writes a command, or the serial line brings a word (00_scope.md R8). -/
def State.deliver (s : State) : Input → State
  | .command w => { s with cmdPort := s.cmdPort ++ [w] }
  | .serial w => { s with bytePort := s.bytePort ++ [w] }

/-- Time passes: a free duration, and free choices for the next step. -/
def State.passTime (s : State) : State :=
  { s with
    now := s.now.add (Time.ofNNRat (Config.elapsed s.moment))
    input := Config.nextInput s.moment
    breakAfter := Config.nextBreak s.moment
    turn := Config.nextTurn s.moment
    moment := s.moment + 1 }

/-- Time passes after a step that gives a next state. -/
def thenPassTime : Host.Outcome State Fault Refusal → Host.Outcome State Fault Refusal
  | .next s => .next s.passTime
  | .fault r => .fault r
  | .refused r => .refused r

/-- The state in which the word `w` is the next one taken and its operation runs whole: on the byte port or the command port it
stands first; for the TICK word the timer is armed and due. What would go before it is put out of the way: a step of the
environment, a waiting byte, the rest of a running operation (log 1). -/
def State.present (s : State) (w : Word) : State :=
  match naturalPath w with
  | .byte => { s with input := none, bytePort := w :: s.bytePort }
  | .cmd =>
    { s with input := none, bytePort := [], todo := [], breakAfter := none, cmdPort := w :: s.cmdPort, turn := .command }
  | .timer =>
    { s with input := none, bytePort := [], todo := [], breakAfter := none, armed := true, deadline := some s.now,
             turn := .tick }

end Sys2Proof.Machine
end

