-- ==== Sys2Proof/Machine/Run.lean ====
section
/-! DEFINITION. What a taken word does, whole or up to the next suspension, and the running of a list of operations. -/

namespace Sys2Proof.Machine

/-- What a word taken on a path does: its operation, or ILLEGAL_CMD (40_sequencer.md R108). -/
def runWord (path : Path) (w : Word) (s : State) : Host.Outcome State Fault Refusal :=
  match decode path w with
  | .legal i => exec i s
  | .illegal _ => takeIllegal s w

/-- The checks and tasks of an operation of the display engine; RX_BYTE, the producer's step, is none and is never suspended
(41_host_port.md R140). -/
def planOf (i : Instr) (s : State) : Option Plan :=
  match i with
  | .init => some s.planInit
  | .bankInit => some s.planBankInit
  | .writeRowbuf cell value => some (s.planWriteRowbuf cell value)
  | .loadRow row => some (s.planLoadRow row)
  | .sendRow row => some (s.planSendRow row)
  | .displayFull => some s.planDisplayFull
  | .arm => some s.planArm
  | .tick => some s.planTick
  | .rxByte _ => none

/-- An operation that is suspended after `n` of its actions (20_memory.md R62, 60_exceptions.md R196). One that faults, and
RX_BYTE, run whole. -/
def runPart (n : Nat) (i : Instr) (s : State) : Host.Outcome State Fault Refusal :=
  match planOf i s with
  | some (.runs tasks) => whenRunning s (.next (State.acts n { s with todo := tasks }))
  | some (.raises _) => exec i s
  | none => exec i s

/-- What a word taken on a path does in a step: its operation, whole or up to its suspension, or ILLEGAL_CMD. -/
def State.takeWord (s : State) (path : Path) (w : Word) : Host.Outcome State Fault Refusal :=
  match s.breakAfter with
  | some n =>
    match decode path w with
    | .legal i => runPart n i s
    | .illegal _ => takeIllegal s w
  | none => runWord path w s

/-- Runs operations one after another, in one interleaving of the agents (20_memory.md R62), up to the first that does not
give a next state. -/
def runAll : List Instr → State → Host.Outcome State Fault Refusal
  | [], s => .next s
  | i :: rest, s =>
    match exec i s with
    | .next t => runAll rest t
    | .fault r => .fault r
    | .refused r => .refused r

end Sys2Proof.Machine
end

