-- ==== Sys2Proof/Machine/Step.lean ====
section
/-! DEFINITION. One step of the machine, and the placing of a word where the next step takes it. -/

namespace Sys2Proof.Machine

/-- One step, of one agent (00_scope.md R8, 20_memory.md R62). With FAULT set there is none (60_exceptions.md R191). The
environment's step, if it moves; else the next word is taken; else the running operation goes on, or with none running every
agent is idle. Then time passes (log 6). -/
def step (s : State) : Host.Outcome State Fault Refusal :=
  whenRunning s
    (match s.input with
     | some x => thenPassTime (.next (s.deliver x))
     | none =>
       match s.fetch with
       | some (path, w, s') => thenPassTime (s'.takeWord path w)
       | none => thenPassTime (.next s.resume))

/-- `s` with an opcode-table word placed where `step` takes its next word (log 1). -/
def State.withFetchWord (s : State) (nbits w : Nat) : State := s.present (tableWord nbits w)

end Sys2Proof.Machine
end

