-- ==== Sys2Proof/Machine/Flags.lean ====
section
/-! DEFINITION. The block has no flags or condition codes, and no operation writes or branches on one (10_state.md R36).
What it has is the derived STATUS view. -/

namespace Sys2Proof.Machine

/-- STATUS = (DRV_READY, ARMED, PEND ≠ none, FAULT ≠ none), a view and not a register (10_state.md R36). -/
def State.status (s : State) : Bool × Bool × Bool × Bool :=
  (s.drvReady, s.armed, s.pend.isSome, s.fault.isSome)

/-- The number of allocated slots (10_state.md R31). -/
def State.allocated (s : State) : Nat := 2 + (if s.pend.isSome then 1 else 0)

end Sys2Proof.Machine
end

