-- ==== Sys2Proof/Machine/Pseudo.lean ====
section
/-! DEFINITION. The assembler: pseudo-instructions (30_encoding.md R88) and one line of source (R87). -/

namespace Sys2Proof.Machine

/-- The pseudo-instructions of 30_encoding.md R88. -/
inductive Pseudo
  | writePixel (col : Col) (r g b : Byte)
  | fillRowbuf (r g b : Byte)
  | rxResync
  | rxFrame (bytes : Vector Byte 192)
  | showRow (row : Row)
  deriving DecidableEq, Repr

/-- WRITE_PIXEL (30_encoding.md R88). -/
def writePixel (col : Col) (r g b : Byte) : List Instr :=
  [.writeRowbuf (laneCell col .r).val r, .writeRowbuf (laneCell col .g).val g, .writeRowbuf (laneCell col .b).val b]

/-- The expansion of a pseudo-instruction; none where the assembler refuses it (30_encoding.md R88). -/
def expand : Pseudo → Option (List Instr)
  | .writePixel col r g b => some (writePixel col r g b)
  | .fillRowbuf r g b => some ((List.finRange Config.cols).flatMap fun c => writePixel c r g b)
  | .rxResync => some [.rxByte Config.resyncByte]
  | .rxFrame bytes =>
    if bytes.toList.contains Config.resyncByte then none else some (bytes.toList.map Instr.rxByte)
  | .showRow row => some [.loadRow (rowNumber row), .sendRow (rowNumber row)]

/-- The value of a digit in a base up to 16. -/
def digit? (base : Nat) (c : Char) : Option Nat :=
  let v :=
    if '0'.toNat ≤ c.toNat ∧ c.toNat ≤ '9'.toNat then c.toNat - '0'.toNat
    else if 'a'.toNat ≤ c.toNat ∧ c.toNat ≤ 'f'.toNat then c.toNat - 'a'.toNat + 10
    else if 'A'.toNat ≤ c.toNat ∧ c.toNat ≤ 'F'.toNat then c.toNat - 'A'.toNat + 10
    else 16
  if v < base then some v else none

/-- The value of a non-empty list of digits. -/
def digits? (base : Nat) : List Char → Option Nat
  | [] => none
  | cs => cs.foldl (fun acc c => match acc, digit? base c with
      | some n, some d => some (n * base + d)
      | _, _ => none) (some 0)

/-- A number: decimal, or hexadecimal after 0x (30_encoding.md R87). -/
def number? : List Char → Option Nat
  | '0' :: 'x' :: rest => digits? 16 rest
  | cs => digits? 10 cs

/-- A blank of an assembly line. -/
def isBlank (c : Char) : Bool := c = ' ' || c = '\t'

/-- Drops blanks at both ends. -/
def trimBlanks (cs : List Char) : List Char :=
  ((cs.dropWhile isBlank).reverse.dropWhile isBlank).reverse

/-- Cuts a line at each comma. -/
def splitCommas (cs : List Char) : List (List Char) :=
  cs.foldr (fun c acc => if c = ',' then [] :: acc else match acc with
      | x :: rest => (c :: x) :: rest
      | [] => [[c]]) [[]]

/-- The operands of an assembly line, each a number of 0..255. -/
def operands? (cs : List Char) : Option (List Nat) :=
  if trimBlanks cs = [] then some []
  else (splitCommas cs).mapM fun x => (number? (trimBlanks x)).filter fun n => n < 256

/-- The operation of a mnemonic and its operands. TICK is not written by programs (30_encoding.md R87). -/
def instrOf? (mnemonic : List Char) (operands : List Nat) : Option Instr :=
  if mnemonic = "INIT".toList ∧ operands = [] then some .init
  else if mnemonic = "BANK_INIT".toList ∧ operands = [] then some .bankInit
  else if mnemonic = "DISPLAY_FULL".toList ∧ operands = [] then some .displayFull
  else if mnemonic = "ARM".toList ∧ operands = [] then some .arm
  else match operands with
    | [n] =>
      if mnemonic = "LOAD_ROW".toList then some (.loadRow n)
      else if mnemonic = "SEND_ROW".toList then some (.sendRow n)
      else if mnemonic = "RX_BYTE".toList then some (.rxByte (BitVec.ofNat 8 n))
      else none
    | [n, v] => if mnemonic = "WRITE_ROWBUF".toList then some (.writeRowbuf n (BitVec.ofNat 8 v)) else none
    | _ => none

/-- One line of assembly: a mnemonic, its operands separated by commas, and a comment after ';' (30_encoding.md R87; log 15). -/
def assembleLine (line : List Char) : Option Instr :=
  let code := trimBlanks (line.takeWhile fun c => c ≠ ';')
  (operands? (code.dropWhile fun c => !isBlank c)).bind fun ops =>
    instrOf? (code.takeWhile fun c => !isBlank c) ops

end Sys2Proof.Machine
end

