-- ==== Sys2Proof/Machine/Views.lean ====
section
/-! DEFINITION. What an observer reads: the line vector, the waveform, the clocked bits, and the gradient pattern. -/

namespace Sys2Proof.Machine

/-- The lines in the order of their numbers (10_state.md R21). -/
def allLines : List Line :=
  [.clk, .sda, .lat, .en, .rst] ++ (List.finRange Config.rowLines).map Line.row

/-- The 13-bit line vector of the test vectors: bit n is 1 when line n is Hi (95_test_vectors.md section 0). -/
def lineBits (ls : Lines) : Nat :=
  (allLines.map fun l => if lineLevel ls l = some .hi then 2 ^ (lineIndex l).val else 0).sum

/-- The row-select lines that are Hi: the lit rows (10_state.md R22). -/
def litRows (ls : Lines) : List Row :=
  (List.finRange Config.rowLines).filter fun r => lineLevel ls (.row r) = some .hi

/-- The waveform: the line levels after each change of level (10_state.md R34; log 16). -/
def waveform : Lines → List Event → List Lines
  | _, [] => []
  | ls, e :: rest =>
    if applyEvent ls e = ls then waveform ls rest
    else applyEvent ls e :: waveform (applyEvent ls e) rest

/-- The observer of 95_test_vectors.md V20: the SDA level at each `Set(CLK, Hi)` event. -/
def clockedBits : Lines → List Event → List (Option Level)
  | _, [] => []
  | ls, e :: rest =>
    if e = .set .clk .hi then lineLevel ls .sda :: clockedBits (applyEvent ls e) rest
    else clockedBits (applyEvent ls e) rest

/-- The diagnostic gradient pattern, one allowed value of freshPattern (41_host_port.md R149). -/
def gradientLevel (base : Channel → Byte) (row col : Nat) (ch : Channel) : Nat :=
  (base ch).toNat / (1 + row * row + col)

/-- The gradient pattern as a frame: the inverse layout of 20_memory.md R52. -/
def gradientFrame (base : Channel → Byte) : Frame := fun o =>
  BitVec.ofNat 8 (gradientLevel base (o.val / 3 / 8 + 1) (o.val / 3 % 8 + 1) (channelOf o.val))

end Sys2Proof.Machine
end

