-- ==== Sys2Proof/Safety.lean ====
section
/-! DEFINITION. What counts as a safe state, and the invariant of the block that claims use. -/

namespace Sys2Proof.Machine

/-- The block is running: no fatal fault has been raised (60_exceptions.md R191). -/
abbrev State.running (s : State) : Prop := s.fault = none

/-- The role invariant (10_state.md R31). -/
structure State.RolesDistinct (s : State) : Prop where
  curRcv : s.cur ≠ s.rcv
  pendOther : ∀ p, s.pend = some p → p ≠ s.cur ∧ p ≠ s.rcv

/-- What holds whenever the display engine is between operations. -/
structure State.Resting (s : State) : Prop where
  /-- DRV_READY is true whenever ARMED is true (42_row_scan.md R167) -/
  armedReady : s.armed = true → s.drvReady = true
  /-- there is a deadline exactly when the scan is armed (10_state.md R25, R27) -/
  armedDeadline : s.armed = s.deadline.isSome
  /-- before INIT nothing has been emitted and no tick has run (10_state.md R22, R23) -/
  beforeInit : s.drvReady = false → s.lineMode = .unconfigured ∧ s.trace = [] ∧ s.nextRow = 0
  /-- once ready, TRACE begins with INIT's events, the bank initialization among them (70_reset_and_hazards.md R229) -/
  afterInit : s.drvReady = true → s.lineMode = .outputHighDrive ∧ initSeq <+: s.trace
  /-- the lines of a ready driver at rest: every line is driven, CLK is low, LAT, EN and RST are high -/
  restLevels : s.drvReady = true →
    s.line .clk = some .lo ∧ s.line .lat = some .hi ∧ s.line .en = some .hi ∧ s.line .rst = some .hi ∧
      ∀ l, (s.line l).isSome = true

/-- From `s` these tasks lead to a state with `P`, whatever the producer does between them: whatever bytes a row copy finds, and
whichever slots a handoff leaves current and pending. -/
def Settles (P : State → Prop) : List Task → State → Prop
  | [], s => P s
  | .emit es :: rest, s => Settles P rest (s.emit es)
  | .configured :: rest, s => Settles P rest { s with lineMode := .outputHighDrive }
  | .ready :: rest, s => Settles P rest { s with drvReady := true }
  | .store i v :: rest, s => Settles P rest { s with rowbuf := s.rowbuf.set i.val (some v) }
  | .load _ :: rest, s => ∀ px : Vector Byte 24, Settles P rest { s with rowbuf := px.map some }
  | .showRow r :: rest, s =>
    ∀ px : Vector Byte 24, Settles P rest (State.emit { s with rowbuf := px.map some } (sendRowSeq (rowNumber r) px))
  | .arm :: rest, s => ∀ d : Time, Settles P rest { s with deadline := some d, armed := true }
  | .handoff :: rest, s => ∀ (c : Slot) (p : Option Slot), Settles P rest { s with cur := c, pend := p }
  | .advance :: rest, s => Settles P rest s.advanceScan

/-- The invariant every step keeps. -/
structure State.Inv (s : State) : Prop where
  /-- the three roles are held by different slots (10_state.md R31) -/
  roles : s.RolesDistinct
  /-- the frame store has its canonical form -/
  memory : memWf s.mem = true
  /-- LINES are what TRACE makes of the undriven lines (10_state.md R22, R34) -/
  linesFollow : s.lines = runLines State.reset.lines s.trace
  /-- the block is at rest between operations: now, if none is running, else when the running one has ended -/
  rest : Settles State.Resting s.todo s

/-! Words used by the statements. -/

/-- The byte of an RX_BYTE operation. -/
def receivedByte : Instr → Option Byte
  | .rxByte value => some value
  | .init => none
  | .bankInit => none
  | .writeRowbuf _ _ => none
  | .loadRow _ => none
  | .sendRow _ => none
  | .displayFull => none
  | .arm => none
  | .tick => none

/-- The fault an operation raises in a running state, in the order of 60_exceptions.md R193. ILLEGAL_CMD is raised on the word,
before there is an operation; POOL_EXHAUSTED is unreachable. -/
def faultOf (i : Instr) (s : State) : Option FaultCode :=
  match i with
  | .init => if s.drvReady then some .reinit else none
  | .bankInit => if s.drvReady then none else some .notReady
  | .writeRowbuf cell _ => if s.drvReady then (if cell < 24 then none else some .operandRange) else some .notReady
  | .loadRow row => if s.drvReady then (if 1 ≤ row ∧ row ≤ 8 then none else some .frameAddr) else some .notReady
  | .sendRow _ =>
    if s.drvReady then (if s.rowbuf.toList.contains none then some .rowbufUnwritten else none) else some .notReady
  | .displayFull => if s.drvReady then none else some .notReady
  | .arm => if s.drvReady then (if s.armed then some .rearm else none) else some .notReady
  | .tick => if s.drvReady then none else some .notReady
  | .rxByte _ => none

/-- The word has an operation code outside the table, a non-zero Z, or a non-zero field marked "must be 0"
(30_encoding.md R82, R84). -/
abbrev reservedEncoding (w : Word) : Prop :=
  (opField w).toNat ∉ [0x01, 0x02, 0x03, 0x04, 0x05, 0x06, 0x07, 0x08, 0x10] ∨
  zField w ≠ 0#8 ∨
  ((opField w).toNat ∈ [0x01, 0x02, 0x06, 0x07, 0x08, 0x10] ∧ aField w ≠ 0#8) ∨
  ((opField w).toNat ∈ [0x01, 0x02, 0x04, 0x05, 0x06, 0x07, 0x08] ∧ bField w ≠ 0#8)

/-- The encoding part of an operation's rule: `w` is its word; on its path the word runs the operation; and a word with its code
that breaks the format of 30_encoding.md R84 raises ILLEGAL_CMD there, before any event. -/
def EncodedAs (i : Instr) (w : Word) : Prop :=
  encode i = w ∧
  (∀ s : State, runWord (issuePath i) w s = exec i s) ∧
  ∀ (bad : Word) (s : State), opField bad = opField w → reservedEncoding bad → s.running →
    runWord (issuePath i) bad s = .next { s with fault := some (.illegalCmd, bad) }

/-- The running operation with received bytes inside it: before each byte that many of its actions, after the last byte the rest
of it (20_memory.md R62). -/
def interleaved : List (Nat × Byte) → State → Host.Outcome State Fault Refusal
  | [], s => .next s.finish
  | (n, b) :: rest, s =>
    match exec (.rxByte b) (State.acts n s) with
    | .next t => interleaved rest t
    | .fault r => .fault r
    | .refused r => .refused r

/-- The operations that send rows (70_reset_and_hazards.md R229). -/
def sendsRows (i : Instr) : Prop := i = .tick ∨ i = .displayFull ∨ ∃ r, i = .sendRow r

/-- The slot that is current when a tick sends its row, and what is pending then (42_row_scan.md R165, R167). -/
def tickSlot (s : State) : Slot := if s.nextRow = 0 then s.pend.getD s.cur else s.cur

end Sys2Proof.Machine
end

