-- ==== Sys2Proof/Certificates/Slice0/Obligations.lean ====
section
/-! DEFINITION. The statements for the provers, each from the numbered rules of spec/. -/

open Sys2Proof Sys2Proof.Machine

/-! Encoding. -/

/-- Decode and encode agree: the word of every well-formed operation, on its issuer's path, decodes to that operation
(30_encoding.md sections 1, 2 and 4). -/
def Obligations.DecodeInvertsEncode : Prop :=
  ∀ i : Instr, i.wellFormed = true → decode (issuePath i) (encode i) = .legal i

/-- Every word that decodes is the word of the operation it decodes to, came on the path of that operation's issuer, and the
operation is well formed (30_encoding.md sections 2 and 4). -/
def Obligations.LegalWordIsTheOperationsWord : Prop :=
  ∀ (p : Path) (w : Word) (i : Instr), decode p w = .legal i →
    encode i = w ∧ issuePath i = p ∧ i.wellFormed = true

/-- Words of the spec's decode vectors (95_test_vectors.md section 2.1). -/
def Obligations.SpecWordsDecode : Prop :=
  decode .cmd 0x01000000#32 = .legal .init ∧
  decode .cmd 0x02000000#32 = .legal .bankInit ∧
  decode .cmd 0x03170030#32 = .legal (.writeRowbuf 23 0x30#8) ∧
  decode .cmd 0x04000000#32 = .legal (.loadRow 0) ∧
  decode .cmd 0x05FF0000#32 = .legal (.sendRow 255) ∧
  decode .cmd 0x06000000#32 = .legal .displayFull ∧
  decode .cmd 0x07000000#32 = .legal .arm ∧
  decode .timer 0x08000000#32 = .legal .tick ∧
  decode .byte 0x100000FF#32 = .legal (.rxByte 0xFF#8)

/-- 30_encoding.md R84: the reserved encodings raise ILLEGAL_CMD and do nothing else, on every path, and no word with such an
encoding means an operation. -/
def Obligations.ReservedEncodingsRaiseIllegal : Prop :=
  ∀ (p : Path) (w : Word), reservedEncoding w →
    (∀ i, decode p w ≠ .legal i) ∧
    ∀ s : State, s.running → runWord p w s = .next { s with fault := some (.illegalCmd, w) }

/-- 30_encoding.md R83: TICK and RX_BYTE words are illegal on the command port, a word other than RX_BYTE is illegal on the
byte port, a word other than TICK on the timer path. -/
def Obligations.WordsAreBoundToTheirPath : Prop :=
  ∀ (s : State) (w : Word), s.running →
    runWord .cmd (encode .tick) s = .next (s.raise .illegalCmd (encode .tick)) ∧
    (∀ b, runWord .cmd (encode (.rxByte b)) s = .next (s.raise .illegalCmd (encode (.rxByte b)))) ∧
    ((∀ b, w ≠ encode (.rxByte b)) → runWord .byte w s = .next (s.raise .illegalCmd w)) ∧
    (w ≠ encode .tick → runWord .timer w s = .next (s.raise .illegalCmd w))

/-! The step. -/

/-- A step runs the decoded operation whole on the state without the taken word, when the operation is not suspended; and then
time passes by a free duration. (The environment's step, the suspension, the passing of time and the free turn are the model's:
log 1, log 8, log 6, log 7.) -/
def Obligations.StepRunsTheDecodedOperation : Prop :=
  ∀ (s s' : State) (p : Path) (w : Word) (i : Instr),
    s.running → s.input = none → s.fetch = some (p, w, s') → decode p w = .legal i →
    (s.breakAfter = none ∨ ∃ b, i = .rxByte b) →
    step s = match exec i s' with
      | .next t => .next { t with
          now := t.now.add (Time.ofNNRat (Config.elapsed t.moment))
          input := Config.nextInput t.moment
          breakAfter := Config.nextBreak t.moment
          turn := Config.nextTurn t.moment
          moment := t.moment + 1 }
      | .fault r => .fault r
      | .refused r => .refused r

/-- An operation that is suspended does its first actions only, and what is left waits in the state (20_memory.md section 5,
60_exceptions.md section 2; after how many actions is the model's free choice, log 8). One whose checks fail raises its fault
at once. -/
def Obligations.OperationMayBeSuspended : Prop :=
  ∀ (s s' : State) (p : Path) (w : Word) (i : Instr) (n : Nat),
    s.running → s.input = none → s.fetch = some (p, w, s') → decode p w = .legal i → s.breakAfter = some n →
    (∀ ts, planOf i s' = some (.runs ts) → step s = .next (State.acts n { s' with todo := ts }).passTime) ∧
    (∀ c, planOf i s' = some (.raises c) → step s = .next (s'.raise c (encode i)).passTime)

/-- With no byte waiting a suspended operation goes on, to its end or to its next suspension, before any other word is taken
(60_exceptions.md sections 2 and 3; the free suspension is log 8). -/
def Obligations.SuspendedOperationGoesOn : Prop :=
  ∀ s : State, s.running → s.input = none → s.bytePort = [] → s.todo ≠ [] →
    (s.breakAfter = none → step s = .next (State.passTime { s.performAll s.todo with todo := [] })) ∧
    (∀ n, s.breakAfter = some n → step s = .next (State.acts n s).passTime)

/-- Where an operation is suspended changes nothing in what it leaves: enough actions leave what the whole operation leaves, and
every earlier point has emitted a beginning of its events (10_state.md section 10). -/
def Obligations.SuspensionChangesNoOutcome : Prop :=
  ∀ (i : Instr) (s : State) (ts : List Task), s.running → s.todo = [] → planOf i s = some (.runs ts) →
    ∃ (t : State) (n : Nat), exec i s = .next t ∧
      (∀ k, n ≤ k → State.acts k { s with todo := ts } = t) ∧
      ∀ k, (State.acts k { s with todo := ts }).trace <+: t.trace

/-- A word that does not decode raises ILLEGAL_CMD with that word when it is taken (30_encoding.md section 4); then time passes
(log 6). -/
def Obligations.StepTakesAnIllegalWord : Prop :=
  ∀ (s s' : State) (p : Path) (w : Word) (why : IllegalReason),
    s.running → s.input = none → s.fetch = some (p, w, s') → decode p w = .illegal why →
    step s = .next (s'.raise .illegalCmd w).passTime

/-- An illegal word on the byte port stops a suspended operation where it is: nothing of it is undone, what was left of it stays
undone, and the block has no further step (60_exceptions.md sections 1 and 2, 41_host_port.md section 1). -/
def Obligations.IllegalByteStopsAnOperation : Prop :=
  ∀ (s : State) (w : Word) (rest : List Word) (why : IllegalReason),
    s.running → s.input = none → s.bytePort = w :: rest → decode .byte w = .illegal why →
    ∃ t, step s = .next t ∧ t.fault = some (.illegalCmd, w) ∧ t.trace = s.trace ∧ t.lines = s.lines ∧ t.todo = s.todo ∧
      step t = .fault (.halted .illegalCmd w)

/-- With nothing to take and no operation running the block is idle: only the environment's fields change (60_exceptions.md
section 5; those fields are the model's, log 1, log 6, log 7, log 8). -/
def Obligations.IdleStepKeepsTheBlock : Prop :=
  ∀ s : State, s.running → s.input = none → s.fetch = none → s.todo = [] →
    ∃ now input breakAfter turn moment,
      step s = .next { s with
        now := now, input := input, breakAfter := breakAfter, turn := turn, moment := moment } ∧ s.now.secs ≤ now.secs

/-- The command issuer's step writes one word to the command port, the serial line brings one to the byte port, each behind the
words that wait there, and nothing else changes but what passes with time (00_scope.md section 4; when they move is the model's
free choice, log 1). -/
def Obligations.HostInputsReachThePorts : Prop :=
  ∀ (s : State) (w : Word), s.running →
    (s.input = some (.command w) → step s = .next (State.passTime { s with cmdPort := s.cmdPort ++ [w] })) ∧
    (s.input = some (.serial w) → step s = .next (State.passTime { s with bytePort := s.bytePort ++ [w] }))

/-- A waiting byte is taken before a due tick and before a waiting command, and in the middle of an operation too; in the middle
of an operation nothing else is taken (60_exceptions.md sections 2 and 3). -/
def Obligations.WaitingByteIsTakenFirst : Prop :=
  ∀ s : State,
    (∀ (w : Word) (rest : List Word), s.bytePort = w :: rest → s.fetch = some (.byte, w, { s with bytePort := rest })) ∧
    (s.bytePort = [] → s.todo ≠ [] → s.fetch = none)

/-- A tick is never taken before its deadline nor inside an operation; a due tick with no waiting byte and no waiting command is
taken; a command is taken when no byte waits and no tick is due, whatever the turn; with both a due tick and a waiting command
the free turn decides (42_row_scan.md section 2). -/
def Obligations.TickIsTakenOnlyWhenDue : Prop :=
  (∀ (s s' : State) (w : Word), s.fetch = some (.timer, w, s') →
    s' = s ∧ w = encode .tick ∧ s.todo = [] ∧ s.armed = true ∧ ∃ d, s.deadline = some d ∧ d.secs ≤ s.now.secs) ∧
  (∀ (s : State) (d : Time), s.armed = true → s.deadline = some d → d.secs ≤ s.now.secs →
    s.bytePort = [] → s.todo = [] → (s.turn = .tick ∨ s.cmdPort = []) →
    s.fetch = some (.timer, encode .tick, s)) ∧
  (∀ (s : State) (w : Word) (rest : List Word), s.bytePort = [] → s.todo = [] → s.cmdPort = w :: rest →
    (s.turn = .command ∨ s.tickDue = false) →
    s.fetch = some (.cmd, w, { s with cmdPort := rest }))

/-- The interface's placed word is the one the next step runs, whole, on a state that differs only in the environment's fields,
in the position inside an operation and, for TICK, in the timer (log 1). -/
def Obligations.PlacedWordRunsNext : Prop :=
  ∀ (s : State) (w : Nat) (i : Instr), s.running → decodeTableWord 32 w = some i →
    ∃ s' : State, step (s.withFetchWord 32 w) = thenPassTime (exec i s') ∧
      s' = { s with armed := s'.armed, deadline := s'.deadline, todo := s'.todo, cmdPort := s'.cmdPort,
                    bytePort := s'.bytePort, input := s'.input, breakAfter := s'.breakAfter, turn := s'.turn } ∧
      (i ≠ .tick → s'.armed = s.armed ∧ s'.deadline = s.deadline)

/-- Time never goes back, in any step (00_scope.md section 5, 42_row_scan.md section 2; the passing of time is log 6). -/
def Obligations.TimeNeverGoesBack : Prop :=
  ∀ s t : State, step s = .next t → s.now.secs ≤ t.now.secs

/-! Power-on and the invariants. -/

/-- 70_reset_and_hazards.md R220: the power-on value of every element. -/
def Obligations.PowerOnState : Prop :=
  (∀ l, State.reset.line l = none) ∧ State.reset.lineMode = .unconfigured ∧ State.reset.drvReady = false ∧
  State.reset.armed = false ∧ rowNumber State.reset.nextRow = 1 ∧ State.reset.deadline = none ∧
  (∀ i : CellIndex, State.reset.rowbuf[i.val] = none) ∧
  (∀ o, State.reset.frameRead 0 o = Config.initialCurrent o) ∧
  (∀ o, State.reset.frameRead 1 o = Config.initialReceive o) ∧
  (∀ o, State.reset.frameRead 2 o = Config.initialFree o) ∧
  State.reset.cur = 0 ∧ State.reset.rcv = 1 ∧ State.reset.pend = none ∧ State.reset.freeSlots = [2] ∧
  State.reset.fault = none ∧ State.reset.cursor.val = 0 ∧ State.reset.trace = []

/-- The invariant holds at power-on. -/
def Obligations.PowerOnMeetsTheInvariant : Prop := State.reset.Inv

/-- Every step keeps the invariant, in the middle of an operation too: distinct roles, canonical memory, LINES as TRACE makes
them; and between operations ARMED only when ready and exactly when there is a deadline, INIT's events first in TRACE, and the
rest levels of CLK, LAT, EN and RST. -/
def Obligations.EveryStepKeepsTheInvariant : Prop :=
  ∀ s t : State, s.Inv → step s = .next t → t.Inv

/-- 10_state.md R31: the roles are held by different slots after every step, so at most three slots are allocated and the rest
are free. -/
def Obligations.RolesStayDistinct : Prop :=
  (∀ s t : State, s.RolesDistinct → step s = .next t → t.RolesDistinct) ∧
  (∀ s : State, s.RolesDistinct → s.allocated ≤ Config.poolCap ∧ s.freeSlots.length + s.allocated = Config.poolCap ∧
    s.allocated = 2 + (if s.pend = none then 0 else 1))

/-- The state the block gives each operation to write: every element is left unchanged by the operations that the table of
10_state.md section 10 does not name for it. Not in that table, and the model's: the time `now`, which an operation other than
INIT leaves as it is (log 6); the position `todo`, nothing left of an operation run whole (log 8); the ports and the
environment's step (log 1), the next suspension (log 8), the turn (log 7) and the moment (log 6), which no operation writes. -/
def Obligations.ElementsHaveOnlyTheirWriters : Prop :=
  ∀ (i : Instr) (s t : State), exec i s = .next t →
    (t.lines ≠ s.lines ∨ t.trace ≠ s.trace →
      i = .init ∨ i = .bankInit ∨ (∃ r, i = .sendRow r) ∨ i = .displayFull ∨ i = .tick) ∧
    (t.lineMode ≠ s.lineMode ∨ t.drvReady ≠ s.drvReady ∨ t.now ≠ s.now → i = .init) ∧
    (t.armed ≠ s.armed → i = .arm) ∧
    (t.nextRow ≠ s.nextRow → i = .tick) ∧
    (t.deadline ≠ s.deadline → i = .arm ∨ i = .tick) ∧
    (t.rowbuf ≠ s.rowbuf →
      (∃ r, i = .loadRow r) ∨ (∃ c v, i = .writeRowbuf c v) ∨ i = .tick ∨ i = .displayFull) ∧
    (t.mem ≠ s.mem ∨ t.rcv ≠ s.rcv ∨ t.cursor ≠ s.cursor → ∃ b, i = .rxByte b) ∧
    (t.cur ≠ s.cur → i = .tick) ∧
    (t.pend ≠ s.pend → i = .tick ∨ ∃ b, i = .rxByte b) ∧
    t.todo = s.todo ∧ t.cmdPort = s.cmdPort ∧ t.bytePort = s.bytePort ∧ t.input = s.input ∧
    t.breakAfter = s.breakAfter ∧ t.turn = s.turn ∧ t.moment = s.moment

/-! Faults. -/

/-- 60_exceptions.md R191: with FAULT set neither the machine nor any operation has a step; and the operation that faults emits
no event and moves no line. -/
def Obligations.FaultStopsEveryAgent : Prop :=
  (∀ (s : State) (c : FaultCode) (w : Word), s.fault = some (c, w) →
    step s = .fault (.halted c w) ∧ ∀ i, exec i s = .fault (.halted c w)) ∧
  (∀ (i : Instr) (s t : State), exec i s = .next t → t.fault ≠ none → t.trace = s.trace ∧ t.lines = s.lines)

/-- A faulting operation writes nothing but FAULT, with the operation's own word (40_sequencer.md section 1,
10_state.md section 7). -/
def Obligations.FaultingOperationWritesOnlyFault : Prop :=
  ∀ (i : Instr) (s t : State), exec i s = .next t → t.fault ≠ none →
    ∃ c, t = { s with fault := some (c, encode i) }

/-- In a running state every operation gives a next state, with the first applicable fault or none; an illegal word raises
ILLEGAL_CMD whatever else would apply (an inference the spec marks as its own, 60_exceptions.md section 1, on more than one
fault). -/
def Obligations.FirstApplicableFaultIsRaised : Prop :=
  (∀ (i : Instr) (s : State), s.running →
    ∃ t, exec i s = .next t ∧ t.fault = (faultOf i s).map fun c => (c, encode i)) ∧
  (∀ (p : Path) (w : Word) (why : IllegalReason) (s : State), s.running → decode p w = .illegal why →
    runWord p w s = .next { s with fault := some (.illegalCmd, w) })

/-- 60_exceptions.md R192: before INIT every command but INIT and RX_BYTE raises NOT_READY; after it INIT raises REINIT. -/
def Obligations.CommandsNeedTheirReadiness : Prop :=
  ∀ (i : Instr) (s : State), s.running →
    (s.drvReady = false → i ≠ .init → receivedByte i = none →
      exec i s = .next { s with fault := some (.notReady, encode i) }) ∧
    (s.drvReady = true → exec .init s = .next { s with fault := some (.reinit, encode .init) })

/-- Alloc cannot fail in a completion, whatever the roles are, and takes the lowest slot that is neither current nor the
completed one (20_memory.md section 4, 41_host_port.md section 3). -/
def Obligations.CompletionAlwaysFindsAFreeSlot : Prop :=
  ∀ s : State, ∃ x : Slot, s.installPending.alloc = some x ∧ x ≠ s.cur ∧ x ≠ s.rcv ∧
    ∀ y : Slot, y ≠ s.cur → y ≠ s.rcv → x ≤ y

/-! The line sequencer. -/

/-- 40_sequencer.md R111: INIT. At least 100 ms pass, with no upper bound (R102). -/
def Obligations.InitConstructsTheDriver : Prop :=
  EncodedAs .init 0x01000000#32 ∧
  initSeq = [.config configLevels, .wait 100, .set .rst .hi, .set .en .lo]
    ++ (List.replicate 144 [Event.set .sda .hi, .set .clk .hi, .set .clk .lo]).flatten
    ++ [.set .lat .lo, .set .lat .hi, .set .en .hi] ∧
  initSeq.length = 439 ∧
  (∀ l, configLevels[(lineIndex l).val] = if l = .en ∨ l = .lat then .hi else .lo) ∧
  ∀ s : State, s.running →
    (s.drvReady = true → exec .init s = .next { s with fault := some (.reinit, encode .init) }) ∧
    (s.drvReady = false → ∃ (ls : Lines) (now : Time),
      exec .init s = .next { s with
        lines := ls, lineMode := .outputHighDrive, drvReady := true, trace := s.trace ++ initSeq, now := now } ∧
      s.now.secs + 1 / 10 ≤ now.secs ∧
      ∀ l, lineLevel ls l = some (if l = .sda ∨ l = .lat ∨ l = .en ∨ l = .rst then .hi else .lo))

/-- 40_sequencer.md R109 and R112: BANK_INIT. -/
def Obligations.BankInitArmsTheChip : Prop :=
  EncodedAs .bankInit 0x02000000#32 ∧
  bankInitSeq = [.set .en .lo]
    ++ (List.replicate 144 [Event.set .sda .hi, .set .clk .hi, .set .clk .lo]).flatten
    ++ [.set .lat .lo, .set .lat .hi, .set .en .hi] ∧
  bankInitSeq.length = 436 ∧
  ∀ s : State, s.running →
    (s.drvReady = false → exec .bankInit s = .next { s with fault := some (.notReady, encode .bankInit) }) ∧
    (s.drvReady = true → ∃ ls : Lines,
      exec .bankInit s = .next { s with lines := ls, trace := s.trace ++ bankInitSeq } ∧
      ∀ l, lineLevel ls l =
        if l = .sda ∨ l = .lat ∨ l = .en then some .hi else if l = .clk then some .lo else s.line l)

/-- 40_sequencer.md R113: WRITE_ROWBUF. -/
def Obligations.WriteRowbufWritesOneCell : Prop :=
  ∀ (cell : Nat) (v : Byte) (s : State), s.running →
    (cell < 256 → EncodedAs (.writeRowbuf cell v) (BitVec.ofNat 32 (0x03000000 + cell * 0x10000 + v.toNat))) ∧
    (s.drvReady = false →
      exec (.writeRowbuf cell v) s = .next { s with fault := some (.notReady, encode (.writeRowbuf cell v)) }) ∧
    (s.drvReady = true → 24 ≤ cell →
      exec (.writeRowbuf cell v) s = .next { s with fault := some (.operandRange, encode (.writeRowbuf cell v)) }) ∧
    (s.drvReady = true → cell < 24 → ∃ rb : Vector (Option Byte) 24,
      exec (.writeRowbuf cell v) s = .next { s with rowbuf := rb } ∧
      ∀ i : CellIndex, rb[i.val] = if i.val = cell then some v else s.rowbuf[i.val])

/-- 40_sequencer.md R115: SEND_ROW, for every row index. -/
def Obligations.SendRowTransmitsTheRowBuffer : Prop :=
  ∀ (r : Nat) (s : State), s.running →
    (r < 256 → EncodedAs (.sendRow r) (BitVec.ofNat 32 (0x05000000 + r * 0x10000))) ∧
    (s.drvReady = false → exec (.sendRow r) s = .next { s with fault := some (.notReady, encode (.sendRow r)) }) ∧
    (s.drvReady = true → (∃ i : CellIndex, s.rowbuf[i.val] = none) →
      exec (.sendRow r) s = .next { s with fault := some (.rowbufUnwritten, encode (.sendRow r)) }) ∧
    (∀ px : Vector Byte 24, s.drvReady = true → (∀ i : CellIndex, s.rowbuf[i.val] = some px[i.val]) →
      exec (.sendRow r) s = .next { s with
        lines := runLines s.lines (sendRowSeq r px), trace := s.trace ++ sendRowSeq r px } ∧
      (sendRowSeq r px).length = 580)

/-- 40_sequencer.md R110: the events of a row send in order. Bit j of the 192 is bit 7 - j mod 8 of the gamma-corrected cell
23 - j / 8 (columns 8 to 1, Blue, Green, Red); the blanking is event 360, the latch pulse 577 and 578, the assert 579. -/
def Obligations.RowSendEventsAreInOrder : Prop :=
  ∀ (r : Nat) (px : Vector Byte 24),
    (sendRowSeq r px).length = 580 ∧
    (∀ j : Fin 192,
      let cell := 23 - j.val / 8
      let v := (Config.gamma (channelOf cell) (px[cell]'(by omega))).getLsbD (7 - j.val % 8)
      let n := if j.val < 120 then 3 * j.val else 3 * j.val + 1
      (sendRowSeq r px)[n]? = some (.set .sda (levelOf v)) ∧
      (sendRowSeq r px)[n + 1]? = some (.set .clk .hi) ∧
      (sendRowSeq r px)[n + 2]? = some (.set .clk .lo)) ∧
    (sendRowSeq r px)[360]? = some (.set (prevLine r) .lo) ∧
    (sendRowSeq r px)[577]? = some (.set .lat .lo) ∧
    (sendRowSeq r px)[578]? = some (.set .lat .hi) ∧
    (sendRowSeq r px)[579]? = some (.set (rowLine r) .hi)

/-- What SEND_ROW leaves on every line: the sent row high, the previous row's line low unless it is the same line, LAT high,
CLK low, SDA at bit 0 of the last byte, every other line as before (40_sequencer.md section 2). -/
def Obligations.RowSendLeavesTheseLevels : Prop :=
  ∀ (r : Nat) (px : Vector Byte 24) (s : State), s.running → s.drvReady = true → s.rowbuf = px.map some →
    ∃ t, exec (.sendRow r) s = .next t ∧ ∀ l, t.line l =
      if l = rowLine r then some .hi
      else if l = prevLine r then some .lo
      else if l = .lat then some .hi
      else if l = .clk then some .lo
      else if l = .sda then some (levelOf ((Config.gamma .r px[0]).getLsbD 0))
      else s.line l

/-- 40_sequencer.md R106 and R107: the row-select mapping with its fallback, and the previously lit row. -/
def Obligations.RowLinesOfEveryIndex : Prop :=
  (∀ r : Row, rowLine (rowNumber r) = .row r) ∧
  (∀ i : Nat, i < 1 ∨ 8 < i → rowLine i = .row 7) ∧
  (∀ r : Nat, prevLine r = rowLine ((r + 7) % 8)) ∧
  (∀ r : Nat, 2 ≤ r → r ≤ 8 → prevLine r = rowLine (r - 1)) ∧
  prevLine 1 = .row 7 ∧ prevLine 0 = .row 6 ∧ prevLine 9 = .row 7 ∧ prevLine 10 = .row 0

/-- The bits a row send clocks out: the SDA level at each rising clock event, cells 23 down to 0, gamma-corrected, most
significant bit first (95_test_vectors.md section 2.2, V20). -/
def Obligations.ClockedBitsAreTheGammaBytes : Prop :=
  ∀ (r : Nat) (px : Vector Byte 24) (ls : Lines),
    clockedBits ls (sendRowSeq r px) =
      (List.finRange 24).reverse.flatMap fun i =>
        (byteBits (Config.gamma (channelOf i.val) px[i.val])).map fun v => some (levelOf v)

/-- In scan order exactly the sent row is lit after each send, and after event 360 of a send, until its last event, no row is
lit (an inference the spec marks as its own, 40_sequencer.md section 2, Single lit row). -/
def Obligations.ScanOrderLightsOneRow : Prop :=
  (∀ (r : Row) (px : Vector Byte 24) (ls : Lines),
    (∀ x ∈ litRows ls, Line.row x = prevLine (rowNumber r)) →
    ∀ k, 361 ≤ k → k ≤ 579 → litRows (runLines ls ((sendRowSeq (rowNumber r) px).take k)) = []) ∧
  (∀ (r0 n : Nat) (s : State) (px : Vector Byte 24), s.running → s.drvReady = true → s.rowbuf = px.map some →
    (∀ x ∈ litRows s.lines, Line.row x = prevLine (r0 % 8 + 1)) →
    ∃ t, runAll ((List.range (n + 1)).map fun k => .sendRow ((r0 + k) % 8 + 1)) s = .next t ∧
      (litRows t.lines).map rowNumber = [(r0 + n) % 8 + 1])

/-- An inference the spec marks as its own (70_reset_and_hazards.md section 3, Bank initialization comes before row data): in a
state the block can be in between operations, an operation that sends rows runs only after the bank initialization, with EN
high from its first event to its last; EN is low throughout the bank initialization's shift. -/
def Obligations.BankInitComesBeforeRowData : Prop :=
  (∀ (i : Instr) (s t : State), s.Inv → s.todo = [] → sendsRows i → exec i s = .next t → t.fault = none →
    bankInitSeq <:+: s.trace ∧
    ∃ es, t.trace = s.trace ++ es ∧ ∀ k, lineLevel (runLines s.lines (es.take k)) .en = some .hi) ∧
  (∀ (ls : Lines) (k : Nat), 1 ≤ k → k ≤ 433 → lineLevel (runLines ls (bankInitSeq.take k)) .en = some .lo)

/-- The two forms of a clocked bit that 40_sequencer.md section 1 compares give the same waveform when CLK is low. -/
def Obligations.ClockPulseFormsGiveOneWaveform : Prop :=
  ∀ (ls : Lines) (v : Bool), lineLevel ls .clk = some .lo →
    waveform ls (shiftBit v) =
      waveform ls [.set .sda (levelOf v), .set .clk .lo, .set .clk .hi, .set .clk .lo]

/-- 40_sequencer.md R118: DISPLAY_FULL sends the eight rows of the current frame and leaves row 8 in ROWBUF. -/
def Obligations.DisplayFullSendsTheCurrentFrame : Prop :=
  EncodedAs .displayFull 0x06000000#32 ∧
  ∀ s : State, s.running →
    (s.drvReady = false → exec .displayFull s = .next { s with fault := some (.notReady, encode .displayFull) }) ∧
    (s.drvReady = true → ∃ (rb : Vector (Option Byte) 24) (es : List Event),
      exec .displayFull s = .next { s with lines := runLines s.lines es, rowbuf := rb, trace := s.trace ++ es } ∧
      es = (List.finRange 8).flatMap (fun r => sendRowSeq (rowNumber r) (s.frameRow r)) ∧
      es.length = 4640 ∧
      ∀ i : CellIndex, rb[i.val] = some (s.frameRead s.cur (rowOffset 7 i)))

/-- DISPLAY_FULL ends with row 8 lit and no other row, whatever rows were lit before (an inference the spec marks as its own,
40_sequencer.md section 2, DISPLAY_FULL). -/
def Obligations.DisplayFullEndsWithRowEightLit : Prop :=
  ∀ s : State, s.running → s.drvReady = true →
    ∃ t, exec .displayFull s = .next t ∧ (litRows t.lines).map rowNumber = [8] ∧
      ∀ r : Row, (t.line (.row r)).isSome = true

/-! The row-scan multiplexer. -/

/-- 42_row_scan.md R162: LOAD_ROW. -/
def Obligations.LoadRowCopiesTheRow : Prop :=
  ∀ (row : Nat) (s : State), s.running →
    (row < 256 → EncodedAs (.loadRow row) (BitVec.ofNat 32 (0x04000000 + row * 0x10000))) ∧
    (s.drvReady = false → exec (.loadRow row) s = .next { s with fault := some (.notReady, encode (.loadRow row)) }) ∧
    (s.drvReady = true → row < 1 ∨ 8 < row →
      exec (.loadRow row) s = .next { s with fault := some (.frameAddr, encode (.loadRow row)) }) ∧
    (s.drvReady = true → 1 ≤ row → row ≤ 8 → ∃ rb : Vector (Option Byte) 24,
      exec (.loadRow row) s = .next { s with rowbuf := rb } ∧
      ∀ (i : CellIndex) (o : Offset), o.val = (row - 1) * 24 + i.val → rb[i.val] = some (s.frameRead s.cur o))

/-- 42_row_scan.md R163: ARM. The first deadline is an open value, not before ARM ends. -/
def Obligations.ArmStartsTheScan : Prop :=
  EncodedAs .arm 0x07000000#32 ∧
  ∀ s : State, s.running →
    (s.drvReady = false → exec .arm s = .next { s with fault := some (.notReady, encode .arm) }) ∧
    (s.drvReady = true → s.armed = true → exec .arm s = .next { s with fault := some (.rearm, encode .arm) }) ∧
    (s.drvReady = true → s.armed = false → ∃ d : Time,
      exec .arm s = .next { s with armed := true, deadline := some d } ∧ s.now.secs ≤ d.secs)

/-- 42_row_scan.md R165 and R167: TICK, with and without a pending frame. A deadline is set, as it is whenever the scan is
armed. (The NOT_READY check of 40_sequencer.md R108 cannot fire in a scan, because ARMED implies DRV_READY.) -/
def Obligations.TickSendsOneRowOfTheScan : Prop :=
  EncodedAs .tick 0x08000000#32 ∧
  ∀ (s : State) (d : Time), s.running → s.drvReady = true → s.deadline = some d → ∃ px : Vector Byte 24,
    (∀ (i : CellIndex) (o : Offset), o.val = s.nextRow.val * 24 + i.val →
      px[i.val] = s.frameRead (tickSlot s) o) ∧
    exec .tick s = .next { s with
      cur := tickSlot s
      pend := if s.nextRow = 0 then none else s.pend
      rowbuf := px.map some
      lines := runLines s.lines (sendRowSeq (rowNumber s.nextRow) px)
      trace := s.trace ++ sendRowSeq (rowNumber s.nextRow) px
      nextRow := nextRowOf s.nextRow
      deadline := some (d.add delta) } ∧
    rowNumber (nextRowOf s.nextRow) = rowNumber s.nextRow % 8 + 1 ∧
    delta.secs = 1 / (8 * (Config.targetFps : Rat))

/-- An inference the spec marks as its own (42_row_scan.md section 3, Cadence): after N ticks, with any operations between
them, NEXTROW is (N mod 8) + 1; and once armed the deadline has moved by exactly N × DELTA. -/
def Obligations.CadenceAfterTicks : Prop :=
  ∀ (ops : List Instr) (s t : State), runAll ops s = .next t → t.running → s.nextRow = 0 →
    rowNumber t.nextRow = ops.count .tick % 8 + 1 ∧
    ∀ d0 : Time, s.armed = true → s.deadline = some d0 →
      ∃ d : Time, t.deadline = some d ∧
        d.secs = d0.secs + (ops.count .tick : Rat) * (1 / (8 * (Config.targetFps : Rat)))

/-- A late tick moves no later deadline: ticks in states that differ only in the time leave the same state but for the time
(an inference the spec marks as its own, 42_row_scan.md section 3, on late ticks). -/
def Obligations.LatenessMovesNoDeadline : Prop :=
  ∀ (s : State) (late : Time), s.running → s.drvReady = true →
    ∃ t, exec .tick s = .next t ∧ exec .tick { s with now := late } = .next { t with now := late }

/-- The current frame and its contents change only in a tick at a frame boundary, and then only to the pending frame
(42_row_scan.md section 3, 20_memory.md section 4). -/
def Obligations.CurrentFrameChangesOnlyAtABoundary : Prop :=
  ∀ (i : Instr) (s t : State), s.RolesDistinct → exec i s = .next t →
    (¬ (i = .tick ∧ s.nextRow = 0) → t.cur = s.cur) ∧
    (t.cur = s.cur ∨ s.pend = some t.cur) ∧
    ∀ o, t.frameRead t.cur o = s.frameRead t.cur o

/-- Frame atomicity (an inference the spec marks as its own, 42_row_scan.md section 3): a tick at a frame boundary and the
seven ticks after it, with any bytes received in between, send rows 1 to 8 of one and the same frame. -/
def Obligations.EightTicksSendOneFrame : Prop :=
  ∀ (rest : List Instr) (s : State), s.running → s.drvReady = true → s.RolesDistinct → s.nextRow = 0 →
    (∀ i ∈ rest, i = .tick ∨ ∃ b, i = .rxByte b) → rest.count .tick = 7 →
    ∃ t, runAll (.tick :: rest) s = .next t ∧ t.nextRow = 0 ∧ t.cur = tickSlot s ∧
      t.trace = s.trace ++ (List.finRange 8).flatMap fun r =>
        sendRowSeq (rowNumber r) (Vector.ofFn fun i => s.frameRead (tickSlot s) (rowOffset r i))

/-! The host frame producer. -/

/-- 41_host_port.md R141: RX_BYTE, its three cases. A completion moves the roles as R143 says (see
`CompletionAlwaysFindsAFreeSlot`) and fills the new receive slot with the fresh pattern. -/
def Obligations.RxByteTakesOneByte : Prop :=
  ∀ (b : Byte) (s : State), s.running →
    EncodedAs (.rxByte b) (BitVec.ofNat 32 (0x10000000 + b.toNat)) ∧
    (b = 0xFF#8 → exec (.rxByte b) s = .next { s with cursor := 0 }) ∧
    (b ≠ 0xFF#8 → s.cursor.val < 191 → ∃ (m : List Host.Cell) (c : Offset),
      exec (.rxByte b) s = .next { s with mem := m, cursor := c } ∧ c.val = s.cursor.val + 1 ∧
      ∀ (x : Slot) (o : Offset), memRead m (flatAddr x o) =
        if x = s.rcv ∧ o = s.cursor then b else s.frameRead x o) ∧
    (b ≠ 0xFF#8 → s.cursor.val = 191 → ∃ (m : List Host.Cell) (x : Slot),
      exec (.rxByte b) s = .next { s with mem := m, cursor := 0, pend := some s.rcv, rcv := x } ∧
      s.installPending.alloc = some x ∧
      ∀ (y : Slot) (o : Offset), memRead m (flatAddr y o) =
        if y = x then Config.freshPattern o
        else if y = s.rcv ∧ o = s.cursor then b else s.frameRead y o)

/-- The fresh pattern is not blank (41_host_port.md section 3; its form is log 4). -/
def Obligations.FreshPatternIsNotBlank : Prop := ∃ o, Config.freshPattern o ≠ 0#8

/-- Newest frame wins: of two completions with no tick between them the second frame is pending and the first frame's slot is
received into again, so the pool stays balanced (an inference the spec marks as its own, 41_host_port.md section 4). -/
def Obligations.NewestFrameWins : Prop :=
  ∀ (b b' : Byte) (s t u : State), s.RolesDistinct → b ≠ 0xFF#8 → b' ≠ 0xFF#8 → s.cursor.val = 191 →
    exec (.rxByte b) s = .next t → ∀ m : List Host.Cell, ∀ c : Offset, c.val = 191 →
    exec (.rxByte b') { t with mem := m, cursor := c } = .next u →
    t.pend = some s.rcv ∧ u.pend = some t.rcv ∧ u.rcv = s.rcv ∧ u.cur = s.cur ∧
      u.freeSlots.length = t.freeSlots.length

/-- An inference the spec marks as its own (41_host_port.md section 4, A committed frame is exactly the bytes that built it):
the 192 bytes received since CURSOR was 0, whatever operations of the display engine run between them. -/
def Obligations.CommittedFrameIsTheReceivedBytes : Prop :=
  ∀ (ops : List Instr) (last : Byte) (s t : State),
    s.cursor = 0 → runAll (ops ++ [Instr.rxByte last]) s = .next t → t.running →
    (∀ b ∈ (ops ++ [Instr.rxByte last]).filterMap receivedByte, b ≠ 0xFF#8) →
    ((ops ++ [Instr.rxByte last]).filterMap receivedByte).length = 192 →
    t.pend = some s.rcv ∧ t.cursor = 0 ∧
      ∀ o : Offset, ((ops ++ [Instr.rxByte last]).filterMap receivedByte)[o.val]? = some (t.frameRead s.rcv o)

/-- The outcome does not depend on where the producer's step falls: it commutes with every operation of the display engine that
raises no fault, outside the handoff of a frame-boundary tick, and with every single action inside an operation but the handoff
(20_memory.md section 5). -/
def Obligations.ProducerCommutesWithTheEngine : Prop :=
  (∀ (b : Byte) (i : Instr) (s : State), s.running → s.RolesDistinct → receivedByte i = none → faultOf i s = none →
    ¬ (i = .tick ∧ s.nextRow = 0) →
    ∃ t, runAll [i, .rxByte b] s = .next t ∧ runAll [.rxByte b, i] s = .next t) ∧
  (∀ (b : Byte) (s : State), s.running → s.RolesDistinct → s.todo.head? ≠ some .handoff →
    ∃ t, exec (.rxByte b) s = .next t ∧ exec (.rxByte b) s.act = .next t.act)

/-- Bytes received inside an operation, between any of its events, leave what they leave when the operation runs whole at some
place among them (an inference the spec marks as its own, 20_memory.md section 5). -/
def Obligations.InterleavingIsSomeAtomicOrder : Prop :=
  ∀ (i : Instr) (s : State) (ts : List Task) (cuts : List (Nat × Byte)),
    s.running → s.RolesDistinct → s.todo = [] → planOf i s = some (.runs ts) →
    ∃ (t : State) (j : Nat), interleaved cuts { s with todo := ts } = .next t ∧
      runAll ((cuts.take j).map (fun c => .rxByte c.2) ++ i :: (cuts.drop j).map fun c => .rxByte c.2) s = .next t

/-- Only the current frame reaches the lines: outside a frame boundary, states that differ only in the contents of other slots
emit the same events (20_memory.md section 4). -/
def Obligations.OnlyTheCurrentFrameReachesTheLines : Prop :=
  ∀ (i : Instr) (s t : State) (m : List Host.Cell),
    (∀ o, memRead m (flatAddr s.cur o) = s.frameRead s.cur o) → receivedByte i = none →
    ¬ (i = .tick ∧ s.nextRow = 0) → exec i s = .next t →
    exec i { s with mem := m } = .next { t with mem := m }

/-! Layout, patterns, boot. -/

/-- 20_memory.md R52: the layout of a frame and its inverse. -/
def Obligations.FrameLayoutAndItsInverse : Prop :=
  (∀ (row : Row) (col : Col) (ch : Channel),
    (frameOffset row col ch).val =
      ((rowNumber row - 1) * 8 + (col.val + 1 - 1)) * 3 + (match ch with | .r => 0 | .g => 1 | .b => 2) ∧
    (frameOffset row col ch).val / 3 / 8 + 1 = rowNumber row ∧
    (frameOffset row col ch).val / 3 % 8 = col.val ∧
    channelOf (frameOffset row col ch).val = ch ∧
    rowOffset row (laneCell col ch) = frameOffset row col ch) ∧
  (∀ o : Offset, ∃ (row : Row) (col : Col), frameOffset row col (channelOf o.val) = o)

/-- 41_host_port.md R149: the gradient pattern. -/
def Obligations.GradientPattern : Prop :=
  ∀ (base : Channel → Byte) (ch : Channel),
    (∀ (row : Row) (col : Col), gradientFrame base (frameOffset row col ch) =
      BitVec.ofNat 8 ((base ch).toNat / (1 + rowNumber row * rowNumber row + (col.val + 1)))) ∧
    (∀ row col row' col' : Nat, row * row + col ≤ row' * row' + col' →
      gradientLevel base row' col' ch ≤ gradientLevel base row col ch) ∧
    (3 ≤ (base ch).toNat → ∃ o, gradientFrame base o ≠ 0#8)

/-- 30_encoding.md R88: what the pseudo-instructions do. -/
def Obligations.PseudoInstructionsExpand : Prop :=
  (∀ (r g b : Byte) (col : Col), expand (.writePixel col r g b) =
    some [.writeRowbuf (3 * col.val) r, .writeRowbuf (3 * col.val + 1) g, .writeRowbuf (3 * col.val + 2) b]) ∧
  (∀ (r g b : Byte) (s : State), s.running → s.drvReady = true →
    ∃ (is : List Instr) (rb : Vector (Option Byte) 24), expand (.fillRowbuf r g b) = some is ∧ is.length = 24 ∧
      is = (List.finRange 8).flatMap (fun c => (expand (.writePixel c r g b)).getD []) ∧
      runAll is s = .next { s with rowbuf := rb } ∧
      ∀ i : CellIndex, rb[i.val] = some (match channelOf i.val with | .r => r | .g => g | .b => b)) ∧
  expand .rxResync = some [.rxByte 0xFF#8] ∧
  (∀ F : Vector Byte 192, (expand (.rxFrame F) = none ↔ 0xFF#8 ∈ F.toList) ∧
    (0xFF#8 ∉ F.toList → expand (.rxFrame F) = some (F.toList.map Instr.rxByte))) ∧
  (∀ (row : Row) (s : State), s.running → s.drvReady = true →
    expand (.showRow row) = some [.loadRow (rowNumber row), .sendRow (rowNumber row)] ∧
      runAll [.loadRow (rowNumber row), .sendRow (rowNumber row)] s = .next { s with
        rowbuf := (s.frameRow row).map some
        lines := runLines s.lines (sendRowSeq (rowNumber row) (s.frameRow row))
        trace := s.trace ++ sendRowSeq (rowNumber row) (s.frameRow row) })

/-- The boot order of 70_reset_and_hazards.md section 2 reaches a scanning block: from power-on INIT, ARM and a tick run without
a fault, and the tick sends row 1 of initialCurrent. -/
def Obligations.BootReachesTheScan : Prop :=
  ∃ t, runAll [.init, .arm, .tick] State.reset = .next t ∧ t.running ∧ t.armed = true ∧ rowNumber t.nextRow = 2 ∧
    t.trace = initSeq ++ sendRowSeq 1 (Vector.ofFn fun i => Config.initialCurrent (rowOffset 0 i))
end

