-- ==== Sys2Proof/Laws/Config.lean ====
section
/-! SUPPORT. The form in which freshPattern is given leaves out no frame that is not blank. -/

namespace Sys2Proof.Laws

/-- Every frame with a non-zero byte has the form of `Config.patterned` (41_host_port.md R144). -/
theorem patterned_covers (f : Frame) (h : ∃ o, f o ≠ 0#8) : ∃ spot level other, Config.patterned spot level other = f := by
  obtain ⟨o, ho⟩ := h
  have hlt := (f o).isLt
  have hpos : (f o).toNat ≠ 0 := fun e => ho (BitVec.eq_of_toNat_eq e)
  refine ⟨o, ⟨(f o).toNat - 1, by omega⟩, f, funext fun x => ?_⟩
  unfold Config.patterned
  split
  · rename_i hx
    subst hx
    apply BitVec.eq_of_toNat_eq
    simp only [BitVec.toNat_ofNat]
    omega
  · rfl

end Sys2Proof.Laws
end

