-- ==== Sys2Proof/Laws/Decode.lean ====
section
/-! SUPPORT. The fields of a packed word, and a word is its fields. -/

namespace Sys2Proof.Laws

theorem opField_packWord (op a b : Byte) : opField (packWord op a b) = op := by
  unfold opField packWord
  ext i hi
  simp only [BitVec.getElem_extractLsb', BitVec.getLsbD_append]
  rw [if_neg (by omega), if_neg (by omega), if_neg (by omega)]
  simp [BitVec.getLsbD, BitVec.getElem_eq_testBit_toNat, show 24 + i - 8 - 8 - 8 = i by omega]

theorem aField_packWord (op a b : Byte) : aField (packWord op a b) = a := by
  unfold aField packWord
  ext i hi
  simp only [BitVec.getElem_extractLsb', BitVec.getLsbD_append]
  rw [if_neg (by omega), if_neg (by omega), if_pos (by omega)]
  simp [BitVec.getLsbD, BitVec.getElem_eq_testBit_toNat, show 16 + i - 8 - 8 = i by omega]

theorem zField_packWord (op a b : Byte) : zField (packWord op a b) = 0#8 := by
  unfold zField packWord
  ext i hi
  simp only [BitVec.getElem_extractLsb', BitVec.getLsbD_append]
  rw [if_neg (by omega), if_pos (by omega)]
  simp [BitVec.getLsbD, BitVec.getElem_eq_testBit_toNat]

theorem bField_packWord (op a b : Byte) : bField (packWord op a b) = b := by
  unfold bField packWord
  ext i hi
  simp only [BitVec.getElem_extractLsb', BitVec.getLsbD_append]
  rw [if_pos (by omega)]
  simp [BitVec.getLsbD, BitVec.getElem_eq_testBit_toNat]

/-- A word with Z = 0 is packed from its other fields. -/
theorem packWord_fields (w : Word) (h : zField w = 0#8) : packWord (opField w) (aField w) (bField w) = w := by
  unfold packWord; rw [← h]; unfold opField aField bField zField
  ext i hi
  simp only [← BitVec.getLsbD_eq_getElem, BitVec.getLsbD_append, BitVec.getLsbD_extractLsb']
  split
  · simp [show i < 8 by assumption]
  · split
    · simp [show i - 8 < 8 by assumption, show 8 + (i - 8) = i by omega]
    · split
      · simp [show i - 8 - 8 < 8 by assumption, show 16 + (i - 8 - 8) = i by omega]
      · simp [show i - 8 - 8 - 8 < 8 by omega, show 24 + (i - 8 - 8 - 8) = i by omega]

end Sys2Proof.Laws
end

