-- ==== Sys2Proof/Laws/State.lean ====
section
/-! SUPPORT. One lemma for each field and each named update of State. -/

namespace Sys2Proof.Machine.Laws

/-! emit -/

@[simp] theorem emit_lines (s : State) (es : List Event) : (s.emit es).lines = runLines s.lines es := rfl
@[simp] theorem emit_lineMode (s : State) (es : List Event) : (s.emit es).lineMode = s.lineMode := rfl
@[simp] theorem emit_drvReady (s : State) (es : List Event) : (s.emit es).drvReady = s.drvReady := rfl
@[simp] theorem emit_armed (s : State) (es : List Event) : (s.emit es).armed = s.armed := rfl
@[simp] theorem emit_nextRow (s : State) (es : List Event) : (s.emit es).nextRow = s.nextRow := rfl
@[simp] theorem emit_deadline (s : State) (es : List Event) : (s.emit es).deadline = s.deadline := rfl
@[simp] theorem emit_rowbuf (s : State) (es : List Event) : (s.emit es).rowbuf = s.rowbuf := rfl
@[simp] theorem emit_mem (s : State) (es : List Event) : (s.emit es).mem = s.mem := rfl
@[simp] theorem emit_cur (s : State) (es : List Event) : (s.emit es).cur = s.cur := rfl
@[simp] theorem emit_rcv (s : State) (es : List Event) : (s.emit es).rcv = s.rcv := rfl
@[simp] theorem emit_pend (s : State) (es : List Event) : (s.emit es).pend = s.pend := rfl
@[simp] theorem emit_fault (s : State) (es : List Event) : (s.emit es).fault = s.fault := rfl
@[simp] theorem emit_cursor (s : State) (es : List Event) : (s.emit es).cursor = s.cursor := rfl
@[simp] theorem emit_trace (s : State) (es : List Event) : (s.emit es).trace = s.trace ++ es := rfl
@[simp] theorem emit_todo (s : State) (es : List Event) : (s.emit es).todo = s.todo := rfl
@[simp] theorem emit_now (s : State) (es : List Event) : (s.emit es).now = s.now.add (Time.ofMillis (waitedMs es)) := rfl
@[simp] theorem emit_cmdPort (s : State) (es : List Event) : (s.emit es).cmdPort = s.cmdPort := rfl
@[simp] theorem emit_bytePort (s : State) (es : List Event) : (s.emit es).bytePort = s.bytePort := rfl
@[simp] theorem emit_input (s : State) (es : List Event) : (s.emit es).input = s.input := rfl
@[simp] theorem emit_breakAfter (s : State) (es : List Event) : (s.emit es).breakAfter = s.breakAfter := rfl
@[simp] theorem emit_turn (s : State) (es : List Event) : (s.emit es).turn = s.turn := rfl
@[simp] theorem emit_moment (s : State) (es : List Event) : (s.emit es).moment = s.moment := rfl

/-! raise -/

@[simp] theorem raise_lines (s : State) (c : FaultCode) (w : Word) : (s.raise c w).lines = s.lines := rfl
@[simp] theorem raise_lineMode (s : State) (c : FaultCode) (w : Word) : (s.raise c w).lineMode = s.lineMode := rfl
@[simp] theorem raise_drvReady (s : State) (c : FaultCode) (w : Word) : (s.raise c w).drvReady = s.drvReady := rfl
@[simp] theorem raise_armed (s : State) (c : FaultCode) (w : Word) : (s.raise c w).armed = s.armed := rfl
@[simp] theorem raise_nextRow (s : State) (c : FaultCode) (w : Word) : (s.raise c w).nextRow = s.nextRow := rfl
@[simp] theorem raise_deadline (s : State) (c : FaultCode) (w : Word) : (s.raise c w).deadline = s.deadline := rfl
@[simp] theorem raise_rowbuf (s : State) (c : FaultCode) (w : Word) : (s.raise c w).rowbuf = s.rowbuf := rfl
@[simp] theorem raise_mem (s : State) (c : FaultCode) (w : Word) : (s.raise c w).mem = s.mem := rfl
@[simp] theorem raise_cur (s : State) (c : FaultCode) (w : Word) : (s.raise c w).cur = s.cur := rfl
@[simp] theorem raise_rcv (s : State) (c : FaultCode) (w : Word) : (s.raise c w).rcv = s.rcv := rfl
@[simp] theorem raise_pend (s : State) (c : FaultCode) (w : Word) : (s.raise c w).pend = s.pend := rfl
@[simp] theorem raise_fault (s : State) (c : FaultCode) (w : Word) : (s.raise c w).fault = some (c, w) := rfl
@[simp] theorem raise_cursor (s : State) (c : FaultCode) (w : Word) : (s.raise c w).cursor = s.cursor := rfl
@[simp] theorem raise_trace (s : State) (c : FaultCode) (w : Word) : (s.raise c w).trace = s.trace := rfl
@[simp] theorem raise_todo (s : State) (c : FaultCode) (w : Word) : (s.raise c w).todo = s.todo := rfl
@[simp] theorem raise_now (s : State) (c : FaultCode) (w : Word) : (s.raise c w).now = s.now := rfl
@[simp] theorem raise_cmdPort (s : State) (c : FaultCode) (w : Word) : (s.raise c w).cmdPort = s.cmdPort := rfl
@[simp] theorem raise_bytePort (s : State) (c : FaultCode) (w : Word) : (s.raise c w).bytePort = s.bytePort := rfl
@[simp] theorem raise_input (s : State) (c : FaultCode) (w : Word) : (s.raise c w).input = s.input := rfl
@[simp] theorem raise_breakAfter (s : State) (c : FaultCode) (w : Word) : (s.raise c w).breakAfter = s.breakAfter := rfl
@[simp] theorem raise_turn (s : State) (c : FaultCode) (w : Word) : (s.raise c w).turn = s.turn := rfl
@[simp] theorem raise_moment (s : State) (c : FaultCode) (w : Word) : (s.raise c w).moment = s.moment := rfl

/-! frameWrite -/

@[simp] theorem frameWrite_lines (s : State) (slot : Slot) (off : Offset) (v : Byte) : (s.frameWrite slot off v).lines = s.lines := rfl
@[simp] theorem frameWrite_lineMode (s : State) (slot : Slot) (off : Offset) (v : Byte) : (s.frameWrite slot off v).lineMode = s.lineMode := rfl
@[simp] theorem frameWrite_drvReady (s : State) (slot : Slot) (off : Offset) (v : Byte) : (s.frameWrite slot off v).drvReady = s.drvReady := rfl
@[simp] theorem frameWrite_armed (s : State) (slot : Slot) (off : Offset) (v : Byte) : (s.frameWrite slot off v).armed = s.armed := rfl
@[simp] theorem frameWrite_nextRow (s : State) (slot : Slot) (off : Offset) (v : Byte) : (s.frameWrite slot off v).nextRow = s.nextRow := rfl
@[simp] theorem frameWrite_deadline (s : State) (slot : Slot) (off : Offset) (v : Byte) : (s.frameWrite slot off v).deadline = s.deadline := rfl
@[simp] theorem frameWrite_rowbuf (s : State) (slot : Slot) (off : Offset) (v : Byte) : (s.frameWrite slot off v).rowbuf = s.rowbuf := rfl
@[simp] theorem frameWrite_mem (s : State) (slot : Slot) (off : Offset) (v : Byte) : (s.frameWrite slot off v).mem = memWrite s.mem (flatAddr slot off) v := rfl
@[simp] theorem frameWrite_cur (s : State) (slot : Slot) (off : Offset) (v : Byte) : (s.frameWrite slot off v).cur = s.cur := rfl
@[simp] theorem frameWrite_rcv (s : State) (slot : Slot) (off : Offset) (v : Byte) : (s.frameWrite slot off v).rcv = s.rcv := rfl
@[simp] theorem frameWrite_pend (s : State) (slot : Slot) (off : Offset) (v : Byte) : (s.frameWrite slot off v).pend = s.pend := rfl
@[simp] theorem frameWrite_fault (s : State) (slot : Slot) (off : Offset) (v : Byte) : (s.frameWrite slot off v).fault = s.fault := rfl
@[simp] theorem frameWrite_cursor (s : State) (slot : Slot) (off : Offset) (v : Byte) : (s.frameWrite slot off v).cursor = s.cursor := rfl
@[simp] theorem frameWrite_trace (s : State) (slot : Slot) (off : Offset) (v : Byte) : (s.frameWrite slot off v).trace = s.trace := rfl
@[simp] theorem frameWrite_todo (s : State) (slot : Slot) (off : Offset) (v : Byte) : (s.frameWrite slot off v).todo = s.todo := rfl
@[simp] theorem frameWrite_now (s : State) (slot : Slot) (off : Offset) (v : Byte) : (s.frameWrite slot off v).now = s.now := rfl
@[simp] theorem frameWrite_cmdPort (s : State) (slot : Slot) (off : Offset) (v : Byte) : (s.frameWrite slot off v).cmdPort = s.cmdPort := rfl
@[simp] theorem frameWrite_bytePort (s : State) (slot : Slot) (off : Offset) (v : Byte) : (s.frameWrite slot off v).bytePort = s.bytePort := rfl
@[simp] theorem frameWrite_input (s : State) (slot : Slot) (off : Offset) (v : Byte) : (s.frameWrite slot off v).input = s.input := rfl
@[simp] theorem frameWrite_breakAfter (s : State) (slot : Slot) (off : Offset) (v : Byte) : (s.frameWrite slot off v).breakAfter = s.breakAfter := rfl
@[simp] theorem frameWrite_turn (s : State) (slot : Slot) (off : Offset) (v : Byte) : (s.frameWrite slot off v).turn = s.turn := rfl
@[simp] theorem frameWrite_moment (s : State) (slot : Slot) (off : Offset) (v : Byte) : (s.frameWrite slot off v).moment = s.moment := rfl

/-! loadRow -/

@[simp] theorem loadRow_lines (s : State) (r : Row) : (s.loadRow r).lines = s.lines := rfl
@[simp] theorem loadRow_lineMode (s : State) (r : Row) : (s.loadRow r).lineMode = s.lineMode := rfl
@[simp] theorem loadRow_drvReady (s : State) (r : Row) : (s.loadRow r).drvReady = s.drvReady := rfl
@[simp] theorem loadRow_armed (s : State) (r : Row) : (s.loadRow r).armed = s.armed := rfl
@[simp] theorem loadRow_nextRow (s : State) (r : Row) : (s.loadRow r).nextRow = s.nextRow := rfl
@[simp] theorem loadRow_deadline (s : State) (r : Row) : (s.loadRow r).deadline = s.deadline := rfl
@[simp] theorem loadRow_rowbuf (s : State) (r : Row) : (s.loadRow r).rowbuf = (s.frameRow r).map some := rfl
@[simp] theorem loadRow_mem (s : State) (r : Row) : (s.loadRow r).mem = s.mem := rfl
@[simp] theorem loadRow_cur (s : State) (r : Row) : (s.loadRow r).cur = s.cur := rfl
@[simp] theorem loadRow_rcv (s : State) (r : Row) : (s.loadRow r).rcv = s.rcv := rfl
@[simp] theorem loadRow_pend (s : State) (r : Row) : (s.loadRow r).pend = s.pend := rfl
@[simp] theorem loadRow_fault (s : State) (r : Row) : (s.loadRow r).fault = s.fault := rfl
@[simp] theorem loadRow_cursor (s : State) (r : Row) : (s.loadRow r).cursor = s.cursor := rfl
@[simp] theorem loadRow_trace (s : State) (r : Row) : (s.loadRow r).trace = s.trace := rfl
@[simp] theorem loadRow_todo (s : State) (r : Row) : (s.loadRow r).todo = s.todo := rfl
@[simp] theorem loadRow_now (s : State) (r : Row) : (s.loadRow r).now = s.now := rfl
@[simp] theorem loadRow_cmdPort (s : State) (r : Row) : (s.loadRow r).cmdPort = s.cmdPort := rfl
@[simp] theorem loadRow_bytePort (s : State) (r : Row) : (s.loadRow r).bytePort = s.bytePort := rfl
@[simp] theorem loadRow_input (s : State) (r : Row) : (s.loadRow r).input = s.input := rfl
@[simp] theorem loadRow_breakAfter (s : State) (r : Row) : (s.loadRow r).breakAfter = s.breakAfter := rfl
@[simp] theorem loadRow_turn (s : State) (r : Row) : (s.loadRow r).turn = s.turn := rfl
@[simp] theorem loadRow_moment (s : State) (r : Row) : (s.loadRow r).moment = s.moment := rfl

/-! showRow -/

@[simp] theorem showRow_lines (s : State) (r : Row) : (s.showRow r).lines = runLines s.lines (sendRowSeq (rowNumber r) (s.frameRow r)) := by simp only [State.showRow, emit_lines, loadRow_lines]
@[simp] theorem showRow_lineMode (s : State) (r : Row) : (s.showRow r).lineMode = s.lineMode := by simp only [State.showRow, emit_lineMode, loadRow_lineMode]
@[simp] theorem showRow_drvReady (s : State) (r : Row) : (s.showRow r).drvReady = s.drvReady := by simp only [State.showRow, emit_drvReady, loadRow_drvReady]
@[simp] theorem showRow_armed (s : State) (r : Row) : (s.showRow r).armed = s.armed := by simp only [State.showRow, emit_armed, loadRow_armed]
@[simp] theorem showRow_nextRow (s : State) (r : Row) : (s.showRow r).nextRow = s.nextRow := by simp only [State.showRow, emit_nextRow, loadRow_nextRow]
@[simp] theorem showRow_deadline (s : State) (r : Row) : (s.showRow r).deadline = s.deadline := by simp only [State.showRow, emit_deadline, loadRow_deadline]
@[simp] theorem showRow_rowbuf (s : State) (r : Row) : (s.showRow r).rowbuf = (s.frameRow r).map some := by simp only [State.showRow, emit_rowbuf, loadRow_rowbuf]
@[simp] theorem showRow_mem (s : State) (r : Row) : (s.showRow r).mem = s.mem := by simp only [State.showRow, emit_mem, loadRow_mem]
@[simp] theorem showRow_cur (s : State) (r : Row) : (s.showRow r).cur = s.cur := by simp only [State.showRow, emit_cur, loadRow_cur]
@[simp] theorem showRow_rcv (s : State) (r : Row) : (s.showRow r).rcv = s.rcv := by simp only [State.showRow, emit_rcv, loadRow_rcv]
@[simp] theorem showRow_pend (s : State) (r : Row) : (s.showRow r).pend = s.pend := by simp only [State.showRow, emit_pend, loadRow_pend]
@[simp] theorem showRow_fault (s : State) (r : Row) : (s.showRow r).fault = s.fault := by simp only [State.showRow, emit_fault, loadRow_fault]
@[simp] theorem showRow_cursor (s : State) (r : Row) : (s.showRow r).cursor = s.cursor := by simp only [State.showRow, emit_cursor, loadRow_cursor]
@[simp] theorem showRow_trace (s : State) (r : Row) : (s.showRow r).trace = s.trace ++ sendRowSeq (rowNumber r) (s.frameRow r) := by simp only [State.showRow, emit_trace, loadRow_trace]
@[simp] theorem showRow_todo (s : State) (r : Row) : (s.showRow r).todo = s.todo := by simp only [State.showRow, emit_todo, loadRow_todo]
@[simp] theorem showRow_now (s : State) (r : Row) : (s.showRow r).now = s.now.add (Time.ofMillis (waitedMs (sendRowSeq (rowNumber r) (s.frameRow r)))) := by simp only [State.showRow, emit_now, loadRow_now]
@[simp] theorem showRow_cmdPort (s : State) (r : Row) : (s.showRow r).cmdPort = s.cmdPort := by simp only [State.showRow, emit_cmdPort, loadRow_cmdPort]
@[simp] theorem showRow_bytePort (s : State) (r : Row) : (s.showRow r).bytePort = s.bytePort := by simp only [State.showRow, emit_bytePort, loadRow_bytePort]
@[simp] theorem showRow_input (s : State) (r : Row) : (s.showRow r).input = s.input := by simp only [State.showRow, emit_input, loadRow_input]
@[simp] theorem showRow_breakAfter (s : State) (r : Row) : (s.showRow r).breakAfter = s.breakAfter := by simp only [State.showRow, emit_breakAfter, loadRow_breakAfter]
@[simp] theorem showRow_turn (s : State) (r : Row) : (s.showRow r).turn = s.turn := by simp only [State.showRow, emit_turn, loadRow_turn]
@[simp] theorem showRow_moment (s : State) (r : Row) : (s.showRow r).moment = s.moment := by simp only [State.showRow, emit_moment, loadRow_moment]

/-! installPending -/

@[simp] theorem installPending_lines (s : State) : (s.installPending).lines = s.lines := rfl
@[simp] theorem installPending_lineMode (s : State) : (s.installPending).lineMode = s.lineMode := rfl
@[simp] theorem installPending_drvReady (s : State) : (s.installPending).drvReady = s.drvReady := rfl
@[simp] theorem installPending_armed (s : State) : (s.installPending).armed = s.armed := rfl
@[simp] theorem installPending_nextRow (s : State) : (s.installPending).nextRow = s.nextRow := rfl
@[simp] theorem installPending_deadline (s : State) : (s.installPending).deadline = s.deadline := rfl
@[simp] theorem installPending_rowbuf (s : State) : (s.installPending).rowbuf = s.rowbuf := rfl
@[simp] theorem installPending_mem (s : State) : (s.installPending).mem = s.mem := rfl
@[simp] theorem installPending_cur (s : State) : (s.installPending).cur = s.cur := rfl
@[simp] theorem installPending_rcv (s : State) : (s.installPending).rcv = s.rcv := rfl
@[simp] theorem installPending_pend (s : State) : (s.installPending).pend = some s.rcv := rfl
@[simp] theorem installPending_fault (s : State) : (s.installPending).fault = s.fault := rfl
@[simp] theorem installPending_cursor (s : State) : (s.installPending).cursor = s.cursor := rfl
@[simp] theorem installPending_trace (s : State) : (s.installPending).trace = s.trace := rfl
@[simp] theorem installPending_todo (s : State) : (s.installPending).todo = s.todo := rfl
@[simp] theorem installPending_now (s : State) : (s.installPending).now = s.now := rfl
@[simp] theorem installPending_cmdPort (s : State) : (s.installPending).cmdPort = s.cmdPort := rfl
@[simp] theorem installPending_bytePort (s : State) : (s.installPending).bytePort = s.bytePort := rfl
@[simp] theorem installPending_input (s : State) : (s.installPending).input = s.input := rfl
@[simp] theorem installPending_breakAfter (s : State) : (s.installPending).breakAfter = s.breakAfter := rfl
@[simp] theorem installPending_turn (s : State) : (s.installPending).turn = s.turn := rfl
@[simp] theorem installPending_moment (s : State) : (s.installPending).moment = s.moment := rfl

/-! freshFill -/

@[simp] theorem freshFill_lines (s : State) : (s.freshFill).lines = s.lines := by simp only [State.freshFill]
@[simp] theorem freshFill_lineMode (s : State) : (s.freshFill).lineMode = s.lineMode := by simp only [State.freshFill]
@[simp] theorem freshFill_drvReady (s : State) : (s.freshFill).drvReady = s.drvReady := by simp only [State.freshFill]
@[simp] theorem freshFill_armed (s : State) : (s.freshFill).armed = s.armed := by simp only [State.freshFill]
@[simp] theorem freshFill_nextRow (s : State) : (s.freshFill).nextRow = s.nextRow := by simp only [State.freshFill]
@[simp] theorem freshFill_deadline (s : State) : (s.freshFill).deadline = s.deadline := by simp only [State.freshFill]
@[simp] theorem freshFill_rowbuf (s : State) : (s.freshFill).rowbuf = s.rowbuf := by simp only [State.freshFill]
@[simp] theorem freshFill_mem (s : State) : (s.freshFill).mem = memFill s.mem s.rcv Config.freshPattern := by simp only [State.freshFill]
@[simp] theorem freshFill_cur (s : State) : (s.freshFill).cur = s.cur := by simp only [State.freshFill]
@[simp] theorem freshFill_rcv (s : State) : (s.freshFill).rcv = s.rcv := by simp only [State.freshFill]
@[simp] theorem freshFill_pend (s : State) : (s.freshFill).pend = s.pend := by simp only [State.freshFill]
@[simp] theorem freshFill_fault (s : State) : (s.freshFill).fault = s.fault := by simp only [State.freshFill]
@[simp] theorem freshFill_cursor (s : State) : (s.freshFill).cursor = s.cursor := by simp only [State.freshFill]
@[simp] theorem freshFill_trace (s : State) : (s.freshFill).trace = s.trace := by simp only [State.freshFill]
@[simp] theorem freshFill_todo (s : State) : (s.freshFill).todo = s.todo := by simp only [State.freshFill]
@[simp] theorem freshFill_now (s : State) : (s.freshFill).now = s.now := by simp only [State.freshFill]
@[simp] theorem freshFill_cmdPort (s : State) : (s.freshFill).cmdPort = s.cmdPort := by simp only [State.freshFill]
@[simp] theorem freshFill_bytePort (s : State) : (s.freshFill).bytePort = s.bytePort := by simp only [State.freshFill]
@[simp] theorem freshFill_input (s : State) : (s.freshFill).input = s.input := by simp only [State.freshFill]
@[simp] theorem freshFill_breakAfter (s : State) : (s.freshFill).breakAfter = s.breakAfter := by simp only [State.freshFill]
@[simp] theorem freshFill_turn (s : State) : (s.freshFill).turn = s.turn := by simp only [State.freshFill]
@[simp] theorem freshFill_moment (s : State) : (s.freshFill).moment = s.moment := by simp only [State.freshFill]

/-! handoffSchedulerSide -/

@[simp] theorem handoffSchedulerSide_lines (s : State) : (s.handoffSchedulerSide).lines = s.lines := by unfold State.handoffSchedulerSide; split <;> simp_all
@[simp] theorem handoffSchedulerSide_lineMode (s : State) : (s.handoffSchedulerSide).lineMode = s.lineMode := by unfold State.handoffSchedulerSide; split <;> simp_all
@[simp] theorem handoffSchedulerSide_drvReady (s : State) : (s.handoffSchedulerSide).drvReady = s.drvReady := by unfold State.handoffSchedulerSide; split <;> simp_all
@[simp] theorem handoffSchedulerSide_armed (s : State) : (s.handoffSchedulerSide).armed = s.armed := by unfold State.handoffSchedulerSide; split <;> simp_all
@[simp] theorem handoffSchedulerSide_nextRow (s : State) : (s.handoffSchedulerSide).nextRow = s.nextRow := by unfold State.handoffSchedulerSide; split <;> simp_all
@[simp] theorem handoffSchedulerSide_deadline (s : State) : (s.handoffSchedulerSide).deadline = s.deadline := by unfold State.handoffSchedulerSide; split <;> simp_all
@[simp] theorem handoffSchedulerSide_rowbuf (s : State) : (s.handoffSchedulerSide).rowbuf = s.rowbuf := by unfold State.handoffSchedulerSide; split <;> simp_all
@[simp] theorem handoffSchedulerSide_mem (s : State) : (s.handoffSchedulerSide).mem = s.mem := by unfold State.handoffSchedulerSide; split <;> simp_all
@[simp] theorem handoffSchedulerSide_cur (s : State) : (s.handoffSchedulerSide).cur = s.pend.getD s.cur := by unfold State.handoffSchedulerSide; split <;> simp_all
@[simp] theorem handoffSchedulerSide_rcv (s : State) : (s.handoffSchedulerSide).rcv = s.rcv := by unfold State.handoffSchedulerSide; split <;> simp_all
@[simp] theorem handoffSchedulerSide_pend (s : State) : (s.handoffSchedulerSide).pend = none := by unfold State.handoffSchedulerSide; split <;> simp_all
@[simp] theorem handoffSchedulerSide_fault (s : State) : (s.handoffSchedulerSide).fault = s.fault := by unfold State.handoffSchedulerSide; split <;> simp_all
@[simp] theorem handoffSchedulerSide_cursor (s : State) : (s.handoffSchedulerSide).cursor = s.cursor := by unfold State.handoffSchedulerSide; split <;> simp_all
@[simp] theorem handoffSchedulerSide_trace (s : State) : (s.handoffSchedulerSide).trace = s.trace := by unfold State.handoffSchedulerSide; split <;> simp_all
@[simp] theorem handoffSchedulerSide_todo (s : State) : (s.handoffSchedulerSide).todo = s.todo := by unfold State.handoffSchedulerSide; split <;> simp_all
@[simp] theorem handoffSchedulerSide_now (s : State) : (s.handoffSchedulerSide).now = s.now := by unfold State.handoffSchedulerSide; split <;> simp_all
@[simp] theorem handoffSchedulerSide_cmdPort (s : State) : (s.handoffSchedulerSide).cmdPort = s.cmdPort := by unfold State.handoffSchedulerSide; split <;> simp_all
@[simp] theorem handoffSchedulerSide_bytePort (s : State) : (s.handoffSchedulerSide).bytePort = s.bytePort := by unfold State.handoffSchedulerSide; split <;> simp_all
@[simp] theorem handoffSchedulerSide_input (s : State) : (s.handoffSchedulerSide).input = s.input := by unfold State.handoffSchedulerSide; split <;> simp_all
@[simp] theorem handoffSchedulerSide_breakAfter (s : State) : (s.handoffSchedulerSide).breakAfter = s.breakAfter := by unfold State.handoffSchedulerSide; split <;> simp_all
@[simp] theorem handoffSchedulerSide_turn (s : State) : (s.handoffSchedulerSide).turn = s.turn := by unfold State.handoffSchedulerSide; split <;> simp_all
@[simp] theorem handoffSchedulerSide_moment (s : State) : (s.handoffSchedulerSide).moment = s.moment := by unfold State.handoffSchedulerSide; split <;> simp_all

/-! armScan -/

@[simp] theorem armScan_lines (s : State) : (s.armScan).lines = s.lines := rfl
@[simp] theorem armScan_lineMode (s : State) : (s.armScan).lineMode = s.lineMode := rfl
@[simp] theorem armScan_drvReady (s : State) : (s.armScan).drvReady = s.drvReady := rfl
@[simp] theorem armScan_armed (s : State) : (s.armScan).armed = true := rfl
@[simp] theorem armScan_nextRow (s : State) : (s.armScan).nextRow = s.nextRow := rfl
@[simp] theorem armScan_deadline (s : State) : (s.armScan).deadline = some (firstDeadline s.now) := rfl
@[simp] theorem armScan_rowbuf (s : State) : (s.armScan).rowbuf = s.rowbuf := rfl
@[simp] theorem armScan_mem (s : State) : (s.armScan).mem = s.mem := rfl
@[simp] theorem armScan_cur (s : State) : (s.armScan).cur = s.cur := rfl
@[simp] theorem armScan_rcv (s : State) : (s.armScan).rcv = s.rcv := rfl
@[simp] theorem armScan_pend (s : State) : (s.armScan).pend = s.pend := rfl
@[simp] theorem armScan_fault (s : State) : (s.armScan).fault = s.fault := rfl
@[simp] theorem armScan_cursor (s : State) : (s.armScan).cursor = s.cursor := rfl
@[simp] theorem armScan_trace (s : State) : (s.armScan).trace = s.trace := rfl
@[simp] theorem armScan_todo (s : State) : (s.armScan).todo = s.todo := rfl
@[simp] theorem armScan_now (s : State) : (s.armScan).now = s.now := rfl
@[simp] theorem armScan_cmdPort (s : State) : (s.armScan).cmdPort = s.cmdPort := rfl
@[simp] theorem armScan_bytePort (s : State) : (s.armScan).bytePort = s.bytePort := rfl
@[simp] theorem armScan_input (s : State) : (s.armScan).input = s.input := rfl
@[simp] theorem armScan_breakAfter (s : State) : (s.armScan).breakAfter = s.breakAfter := rfl
@[simp] theorem armScan_turn (s : State) : (s.armScan).turn = s.turn := rfl
@[simp] theorem armScan_moment (s : State) : (s.armScan).moment = s.moment := rfl

/-! advanceScan -/

@[simp] theorem advanceScan_lines (s : State) : (s.advanceScan).lines = s.lines := rfl
@[simp] theorem advanceScan_lineMode (s : State) : (s.advanceScan).lineMode = s.lineMode := rfl
@[simp] theorem advanceScan_drvReady (s : State) : (s.advanceScan).drvReady = s.drvReady := rfl
@[simp] theorem advanceScan_armed (s : State) : (s.advanceScan).armed = s.armed := rfl
@[simp] theorem advanceScan_nextRow (s : State) : (s.advanceScan).nextRow = nextRowOf s.nextRow := rfl
@[simp] theorem advanceScan_deadline (s : State) : (s.advanceScan).deadline = s.deadline.map fun d => d.add delta := rfl
@[simp] theorem advanceScan_rowbuf (s : State) : (s.advanceScan).rowbuf = s.rowbuf := rfl
@[simp] theorem advanceScan_mem (s : State) : (s.advanceScan).mem = s.mem := rfl
@[simp] theorem advanceScan_cur (s : State) : (s.advanceScan).cur = s.cur := rfl
@[simp] theorem advanceScan_rcv (s : State) : (s.advanceScan).rcv = s.rcv := rfl
@[simp] theorem advanceScan_pend (s : State) : (s.advanceScan).pend = s.pend := rfl
@[simp] theorem advanceScan_fault (s : State) : (s.advanceScan).fault = s.fault := rfl
@[simp] theorem advanceScan_cursor (s : State) : (s.advanceScan).cursor = s.cursor := rfl
@[simp] theorem advanceScan_trace (s : State) : (s.advanceScan).trace = s.trace := rfl
@[simp] theorem advanceScan_todo (s : State) : (s.advanceScan).todo = s.todo := rfl
@[simp] theorem advanceScan_now (s : State) : (s.advanceScan).now = s.now := rfl
@[simp] theorem advanceScan_cmdPort (s : State) : (s.advanceScan).cmdPort = s.cmdPort := rfl
@[simp] theorem advanceScan_bytePort (s : State) : (s.advanceScan).bytePort = s.bytePort := rfl
@[simp] theorem advanceScan_input (s : State) : (s.advanceScan).input = s.input := rfl
@[simp] theorem advanceScan_breakAfter (s : State) : (s.advanceScan).breakAfter = s.breakAfter := rfl
@[simp] theorem advanceScan_turn (s : State) : (s.advanceScan).turn = s.turn := rfl
@[simp] theorem advanceScan_moment (s : State) : (s.advanceScan).moment = s.moment := rfl

/-! deliver -/

@[simp] theorem deliver_lines (s : State) (x : Input) : (s.deliver x).lines = s.lines := by cases x <;> rfl
@[simp] theorem deliver_lineMode (s : State) (x : Input) : (s.deliver x).lineMode = s.lineMode := by cases x <;> rfl
@[simp] theorem deliver_drvReady (s : State) (x : Input) : (s.deliver x).drvReady = s.drvReady := by cases x <;> rfl
@[simp] theorem deliver_armed (s : State) (x : Input) : (s.deliver x).armed = s.armed := by cases x <;> rfl
@[simp] theorem deliver_nextRow (s : State) (x : Input) : (s.deliver x).nextRow = s.nextRow := by cases x <;> rfl
@[simp] theorem deliver_deadline (s : State) (x : Input) : (s.deliver x).deadline = s.deadline := by cases x <;> rfl
@[simp] theorem deliver_rowbuf (s : State) (x : Input) : (s.deliver x).rowbuf = s.rowbuf := by cases x <;> rfl
@[simp] theorem deliver_mem (s : State) (x : Input) : (s.deliver x).mem = s.mem := by cases x <;> rfl
@[simp] theorem deliver_cur (s : State) (x : Input) : (s.deliver x).cur = s.cur := by cases x <;> rfl
@[simp] theorem deliver_rcv (s : State) (x : Input) : (s.deliver x).rcv = s.rcv := by cases x <;> rfl
@[simp] theorem deliver_pend (s : State) (x : Input) : (s.deliver x).pend = s.pend := by cases x <;> rfl
@[simp] theorem deliver_fault (s : State) (x : Input) : (s.deliver x).fault = s.fault := by cases x <;> rfl
@[simp] theorem deliver_cursor (s : State) (x : Input) : (s.deliver x).cursor = s.cursor := by cases x <;> rfl
@[simp] theorem deliver_trace (s : State) (x : Input) : (s.deliver x).trace = s.trace := by cases x <;> rfl
@[simp] theorem deliver_todo (s : State) (x : Input) : (s.deliver x).todo = s.todo := by cases x <;> rfl
@[simp] theorem deliver_now (s : State) (x : Input) : (s.deliver x).now = s.now := by cases x <;> rfl
@[simp] theorem deliver_input (s : State) (x : Input) : (s.deliver x).input = s.input := by cases x <;> rfl
@[simp] theorem deliver_breakAfter (s : State) (x : Input) : (s.deliver x).breakAfter = s.breakAfter := by cases x <;> rfl
@[simp] theorem deliver_turn (s : State) (x : Input) : (s.deliver x).turn = s.turn := by cases x <;> rfl
@[simp] theorem deliver_moment (s : State) (x : Input) : (s.deliver x).moment = s.moment := by cases x <;> rfl

/-! passTime -/

@[simp] theorem passTime_lines (s : State) : (s.passTime).lines = s.lines := rfl
@[simp] theorem passTime_lineMode (s : State) : (s.passTime).lineMode = s.lineMode := rfl
@[simp] theorem passTime_drvReady (s : State) : (s.passTime).drvReady = s.drvReady := rfl
@[simp] theorem passTime_armed (s : State) : (s.passTime).armed = s.armed := rfl
@[simp] theorem passTime_nextRow (s : State) : (s.passTime).nextRow = s.nextRow := rfl
@[simp] theorem passTime_deadline (s : State) : (s.passTime).deadline = s.deadline := rfl
@[simp] theorem passTime_rowbuf (s : State) : (s.passTime).rowbuf = s.rowbuf := rfl
@[simp] theorem passTime_mem (s : State) : (s.passTime).mem = s.mem := rfl
@[simp] theorem passTime_cur (s : State) : (s.passTime).cur = s.cur := rfl
@[simp] theorem passTime_rcv (s : State) : (s.passTime).rcv = s.rcv := rfl
@[simp] theorem passTime_pend (s : State) : (s.passTime).pend = s.pend := rfl
@[simp] theorem passTime_fault (s : State) : (s.passTime).fault = s.fault := rfl
@[simp] theorem passTime_cursor (s : State) : (s.passTime).cursor = s.cursor := rfl
@[simp] theorem passTime_trace (s : State) : (s.passTime).trace = s.trace := rfl
@[simp] theorem passTime_todo (s : State) : (s.passTime).todo = s.todo := rfl
@[simp] theorem passTime_now (s : State) : (s.passTime).now = s.now.add (Time.ofNNRat (Config.elapsed s.moment)) := rfl
@[simp] theorem passTime_cmdPort (s : State) : (s.passTime).cmdPort = s.cmdPort := rfl
@[simp] theorem passTime_bytePort (s : State) : (s.passTime).bytePort = s.bytePort := rfl
@[simp] theorem passTime_input (s : State) : (s.passTime).input = Config.nextInput s.moment := rfl
@[simp] theorem passTime_breakAfter (s : State) : (s.passTime).breakAfter = Config.nextBreak s.moment := rfl
@[simp] theorem passTime_turn (s : State) : (s.passTime).turn = Config.nextTurn s.moment := rfl
@[simp] theorem passTime_moment (s : State) : (s.passTime).moment = s.moment + 1 := rfl

end Sys2Proof.Machine.Laws
end

