-- ==== Sys2Proof/Laws/Memory.lean ====
section
/-! SUPPORT. The laws of the frame store: a read after a write, and the canonical form. -/

namespace Sys2Proof.Machine.Laws

theorem memRead_memInsert (m : List Host.Cell) (a x : Nat) (b : Byte) :
    memRead (memInsert m a b) x = if a = x then b else memRead m x := by
  induction m with
  | nil => simp [memInsert, memRead]
  | cons c m ih =>
    obtain ⟨k, v⟩ := c
    unfold memInsert
    split
    · simp [memRead]
    · split
      · subst_vars; simp only [memRead]; split <;> rfl
      · simp only [memRead, ih]
        split
        · rw [if_neg]; omega
        · rfl

theorem memRead_memErase (m : List Host.Cell) (a x : Nat) :
    memRead (memErase m a) x = if a = x then unlisted a else memRead m x := by
  induction m with
  | nil => simp only [memErase, List.filter_nil, memRead]; split <;> simp_all
  | cons c m ih =>
    obtain ⟨k, v⟩ := c
    unfold memErase at *
    rw [List.filter_cons]
    by_cases h : k = a
    · subst h
      simp only [memRead, ne_eq, not_true_eq_false, decide_false, Bool.false_eq_true, if_false, ih]
      split <;> rfl
    · simp only [ne_eq, h, not_false_eq_true, decide_true, if_true, memRead, ih]
      split
      · rw [if_neg]; omega
      · rfl

/-- A read after a write: the byte written at its address, and what was there before at every other. -/
theorem memRead_memWrite (m : List Host.Cell) (a x : Nat) (b : Byte) :
    memRead (memWrite m a b) x = if a = x then b else memRead m x := by
  unfold memWrite
  split
  · rename_i h; rw [memRead_memErase, h]
  · exact memRead_memInsert m a x b

/-! The canonical form. -/

theorem memWf_iff (m : List Host.Cell) :
    memWf m = true ↔ m.Pairwise (fun x y => x.1 < y.1) ∧ ∀ c ∈ m, c.1 < 576 ∧ c.2 ≠ unlisted c.1 := by
  simp [memWf, List.all_eq_true]

theorem mem_memInsert (m : List Host.Cell) (a : Nat) (b : Byte) (c : Host.Cell) (h : c ∈ memInsert m a b) :
    c = (a, b) ∨ c ∈ m := by
  induction m with
  | nil => simp_all [memInsert]
  | cons d m ih =>
    obtain ⟨k, v⟩ := d
    unfold memInsert at h
    split at h
    · simpa using h
    · split at h
      · simp only [List.mem_cons] at h ⊢; tauto
      · simp only [List.mem_cons] at h ⊢
        rcases h with h | h
        · exact .inr (.inl h)
        · rcases ih h with h | h <;> tauto

theorem pairwise_memInsert (m : List Host.Cell) (a : Nat) (b : Byte)
    (h : m.Pairwise fun x y => x.1 < y.1) : (memInsert m a b).Pairwise fun x y => x.1 < y.1 := by
  induction m with
  | nil => simp [memInsert]
  | cons d m ih =>
    obtain ⟨k, v⟩ := d
    rw [List.pairwise_cons] at h
    obtain ⟨h1, h2⟩ := h
    unfold memInsert
    split
    · rename_i hak
      refine List.pairwise_cons.2 ⟨?_, List.pairwise_cons.2 ⟨h1, h2⟩⟩
      intro c hc
      rcases List.mem_cons.1 hc with rfl | hc
      · exact hak
      · exact lt_trans hak (h1 c hc)
    · split
      · rename_i hak
        subst hak
        exact List.pairwise_cons.2 ⟨h1, h2⟩
      · refine List.pairwise_cons.2 ⟨?_, ih h2⟩
        intro c hc
        rcases mem_memInsert m a b c hc with rfl | hc
        · show k < a; omega
        · exact h1 c hc

/-- A write inside the frame store keeps the canonical form. -/
theorem memWf_memWrite (m : List Host.Cell) (a : Nat) (b : Byte) (ha : a < 576) (h : memWf m = true) :
    memWf (memWrite m a b) = true := by
  rw [memWf_iff] at h ⊢
  unfold memWrite
  split
  · exact ⟨h.1.filter _, fun c hc => h.2 c (List.mem_filter.1 hc).1⟩
  · rename_i hb
    refine ⟨pairwise_memInsert m a b h.1, fun c hc => ?_⟩
    rcases mem_memInsert m a b c hc with rfl | hc
    · exact ⟨ha, hb⟩
    · exact h.2 c hc

theorem memRead_of_lt (m : List Host.Cell) (a : Nat) (h : ∀ c ∈ m, a < c.1) : memRead m a = unlisted a := by
  induction m with
  | nil => rfl
  | cons c m ih =>
    obtain ⟨k, v⟩ := c
    have hk : a < k := h (k, v) (by simp)
    unfold memRead
    rw [if_neg (by omega)]
    exact ih fun c hc => h c (List.mem_cons_of_mem _ hc)

/-- Canonical memories that read alike everywhere are the same list. -/
theorem mem_ext (m n : List Host.Cell) (hm : memWf m = true) (hn : memWf n = true)
    (h : ∀ a, memRead m a = memRead n a) : m = n := by
  rw [memWf_iff] at hm hn
  obtain ⟨hm1, hm2⟩ := hm
  obtain ⟨hn1, hn2⟩ := hn
  induction m generalizing n with
  | nil =>
    cases n with
    | nil => rfl
    | cons c n =>
      have := h c.1
      simp only [memRead, if_true] at this
      exact absurd this.symm (hn2 c (by simp)).2
  | cons c m ih =>
    obtain ⟨k, v⟩ := c
    rw [List.pairwise_cons] at hm1
    cases n with
    | nil =>
      have := h k
      simp only [memRead, if_true] at this
      exact absurd this (hm2 (k, v) (by simp)).2
    | cons d n =>
      obtain ⟨j, u⟩ := d
      rw [List.pairwise_cons] at hn1
      have hk : k = j := by
        rcases lt_trichotomy k j with hlt | heq | hgt
        · have e := h k
          rw [memRead_of_lt ((j, u) :: n) k (by
            intro c hc
            rcases List.mem_cons.1 hc with rfl | hc
            · exact hlt
            · exact lt_trans hlt (hn1.1 c hc))] at e
          simp only [memRead, if_true] at e
          exact absurd e (hm2 (k, v) (by simp)).2
        · exact heq
        · have e := h j
          rw [memRead_of_lt ((k, v) :: m) j (by
            intro c hc
            rcases List.mem_cons.1 hc with rfl | hc
            · exact hgt
            · exact lt_trans hgt (hm1.1 c hc))] at e
          simp only [memRead, if_true] at e
          exact absurd e.symm (hn2 (j, u) (by simp)).2
      subst hk
      have hv : v = u := by simpa [memRead] using h k
      subst hv
      congr 1
      refine ih n (fun a => ?_) hm1.2 (fun c hc => hm2 c (by simp [hc])) hn1.2 (fun c hc => hn2 c (by simp [hc]))
      by_cases ha : k = a
      · subst ha
        rw [memRead_of_lt m k hm1.1, memRead_of_lt n k hn1.1]
      · simpa [memRead, ha] using h a

/-! The slots. -/

theorem flatAddr_lt (s : Slot) (o : Offset) : flatAddr s o < 576 := by
  have h1 := s.isLt
  have h2 := o.isLt
  simp only [flatAddr, Config.poolCap, Config.frameBytes] at *
  omega

/-- Different places of the frame store have different flat addresses. -/
theorem flatAddr_injective (s s' : Slot) (o o' : Offset) : flatAddr s o = flatAddr s' o' ↔ s = s' ∧ o = o' := by
  have h1 := s.isLt
  have h2 := o.isLt
  have h3 := s'.isLt
  have h4 := o'.isLt
  simp only [flatAddr, Config.poolCap, Config.frameBytes, Fin.ext_iff] at *
  omega

theorem memRead_fold (l : List Offset) (f : Frame) (m : List Host.Cell) (slot slot' : Slot) (o : Offset) :
    memRead (l.foldl (fun m o => memWrite m (flatAddr slot o) (f o)) m) (flatAddr slot' o) =
      if slot' = slot ∧ o ∈ l then f o else memRead m (flatAddr slot' o) := by
  induction l generalizing m with
  | nil => simp
  | cons x l ih =>
    rw [List.foldl_cons, ih, memRead_memWrite]
    simp only [flatAddr_injective, List.mem_cons]
    by_cases h1 : slot' = slot
    · subst h1
      by_cases h2 : o ∈ l
      · simp [h2]
      · by_cases h3 : x = o
        · subst h3; simp [h2]
        · have : ¬ o = x := fun e => h3 e.symm
          simp [h2, h3, this]
    · have : ¬ slot = slot' := fun e => h1 e.symm
      simp [h1, this]

/-- A filled slot reads as the frame, every other slot as before (41_host_port.md R144). -/
theorem memRead_memFill (m : List Host.Cell) (slot slot' : Slot) (f : Frame) (o : Offset) :
    memRead (memFill m slot f) (flatAddr slot' o) = if slot' = slot then f o else memRead m (flatAddr slot' o) := by
  unfold memFill
  rw [memRead_fold]
  simp

theorem memWf_fold (l : List Offset) (f : Frame) (m : List Host.Cell) (slot : Slot) (h : memWf m = true) :
    memWf (l.foldl (fun m o => memWrite m (flatAddr slot o) (f o)) m) = true := by
  induction l generalizing m with
  | nil => exact h
  | cons x l ih => exact ih _ (memWf_memWrite _ _ _ (flatAddr_lt _ _) h)

/-- Filling a slot keeps the canonical form. -/
theorem memWf_memFill (m : List Host.Cell) (slot : Slot) (f : Frame) (h : memWf m = true) :
    memWf (memFill m slot f) = true := by
  unfold memFill
  exact memWf_fold _ f m slot h

/-- The memory after power-on has the canonical form. -/
theorem memWf_reset : memWf State.reset.mem = true := rfl

/-- FrameRead after FrameWrite. -/
theorem frameRead_frameWrite (s : State) (slot slot' : Slot) (off off' : Offset) (v : Byte) :
    (s.frameWrite slot off v).frameRead slot' off' =
      if slot' = slot ∧ off' = off then v else s.frameRead slot' off' := by
  simp only [State.frameRead, frameWrite_mem, memRead_memWrite, flatAddr_injective]
  simp only [eq_comm]

/-- FrameRead after the fresh fill. -/
theorem frameRead_freshFill (s : State) (slot : Slot) (off : Offset) :
    s.freshFill.frameRead slot off = if slot = s.rcv then Config.freshPattern off else s.frameRead slot off := by
  simp only [State.frameRead, freshFill_mem, memRead_memFill]

end Sys2Proof.Machine.Laws
end

