-- ==== Sys2Proof/Laws/Lines.lean ====
section
/-! SUPPORT. Lemmas about line levels and event lists. -/

namespace Sys2Proof.Machine.Laws

theorem mem_allLines (l : Line) : l ∈ allLines := by
  cases l <;> simp [allLines]

theorem lineIndex_injective (l l' : Line) (h : lineIndex l = lineIndex l') : l = l' := by
  have all : ∀ x ∈ allLines, ∀ y ∈ allLines, lineIndex x = lineIndex y → x = y := by decide
  exact all l (mem_allLines l) l' (mem_allLines l') h

theorem lineIndex_surjective (i : Fin 13) : ∃ l, lineIndex l = i := by
  revert i
  have h : ∀ i : Fin 13, ∃ l ∈ allLines, lineIndex l = i := by decide
  intro i
  obtain ⟨l, _, hl⟩ := h i
  exact ⟨l, hl⟩

/-- Driving a line changes that line only. -/
theorem lineLevel_set (ls : Lines) (l l' : Line) (v : Option Level) :
    lineLevel (ls.set (lineIndex l).val v) l' = if l = l' then v else lineLevel ls l' := by
  unfold lineLevel
  rw [Vector.getElem_set]
  by_cases h : l = l'
  · simp [h]
  · have : (lineIndex l).val ≠ (lineIndex l').val := fun e => h (lineIndex_injective _ _ (Fin.ext e))
    simp [h, this]

/-- Two line vectors with the same level on every line are equal. -/
theorem lines_ext (a b : Lines) (h : ∀ l, lineLevel a l = lineLevel b l) : a = b := by
  ext i hi : 1
  obtain ⟨l, hl⟩ := lineIndex_surjective ⟨i, hi⟩
  have := h l
  simpa [lineLevel, hl] using this

/-! Running event lists. -/

@[simp] theorem runLines_nil (ls : Lines) : runLines ls [] = ls := rfl

@[simp] theorem runLines_cons (ls : Lines) (e : Event) (es : List Event) :
    runLines ls (e :: es) = runLines (applyEvent ls e) es := rfl

theorem runLines_append (ls : Lines) (a b : List Event) : runLines ls (a ++ b) = runLines (runLines ls a) b := by
  simp [runLines, List.foldl_append]

theorem waitedMs_append (a b : List Event) : waitedMs (a ++ b) = waitedMs a + waitedMs b := by
  induction a with
  | nil => simp [waitedMs]
  | cons e a ih => cases e <;> simp [waitedMs, ih, Nat.add_assoc]

/-- The level the last Set of a line in a list gives it, none if the list has no Set of it. -/
def lastSet (l : Line) : List Event → Option Level
  | [] => none
  | .set l' lv :: rest => (lastSet l rest).or (if l' = l then some lv else none)
  | .config _ :: rest => lastSet l rest
  | .wait _ :: rest => lastSet l rest

/-- A list of Set events only. -/
def onlySets : List Event → Bool
  | [] => true
  | .set _ _ :: rest => onlySets rest
  | .config _ :: _ => false
  | .wait _ :: _ => false

theorem onlySets_append (a b : List Event) : onlySets (a ++ b) = (onlySets a && onlySets b) := by
  induction a with
  | nil => rfl
  | cons e a ih => cases e <;> simp [onlySets, ih]

theorem lastSet_append (l : Line) (a b : List Event) : lastSet l (a ++ b) = (lastSet l b).or (lastSet l a) := by
  induction a with
  | nil => simp [lastSet]
  | cons e a ih => cases e <;> simp [lastSet, ih, Option.or_assoc]

theorem waitedMs_onlySets (es : List Event) (h : onlySets es = true) : waitedMs es = 0 := by
  induction es with
  | nil => rfl
  | cons e es ih => cases e <;> simp_all [onlySets, waitedMs]

/-- After a list of Set events a line has the level of its last Set, and its old level if there is none. -/
theorem lineLevel_runLines (ls : Lines) (es : List Event) (h : onlySets es = true) (l : Line) :
    lineLevel (runLines ls es) l = ((lastSet l es).map some).getD (lineLevel ls l) := by
  induction es generalizing ls with
  | nil => simp [lastSet]
  | cons e es ih =>
    cases e with
    | set l' lv =>
      simp only [onlySets] at h
      simp only [runLines_cons, applyEvent, lastSet]
      rw [ih _ h, lineLevel_set]
      cases lastSet l es <;> simp
      split <;> simp_all
    | config _ => simp [onlySets] at h
    | wait _ => simp [onlySets] at h

/-! Adding nothing to the time. -/

@[simp] theorem add_ofMillis_zero (t : Time) : t.add (Time.ofMillis 0) = t := by
  ext; simp [Time.add, Time.ofMillis]

/-- An event list of Set events takes no time that any rule depends on (40_sequencer.md R100). -/
theorem emit_now_onlySets (s : State) (es : List Event) (h : onlySets es = true) : (s.emit es).now = s.now := by
  simp [waitedMs_onlySets es h]

theorem add_add_ofMillis (t : Time) (m n : Nat) :
    (t.add (Time.ofMillis m)).add (Time.ofMillis n) = t.add (Time.ofMillis (m + n)) := by
  ext; simp [Time.add, Time.ofMillis]; ring

/-- Emitting two lists one after the other is emitting their concatenation. -/
theorem emit_append (s : State) (a b : List Event) : s.emit (a ++ b) = (s.emit a).emit b := by
  simp only [State.emit, runLines_append, waitedMs_append, List.append_assoc, add_add_ofMillis]

@[simp] theorem emit_nil (s : State) : s.emit [] = s := by simp [State.emit, waitedMs]

/-! The sequences. -/

theorem onlySets_shiftBit (v : Bool) : onlySets (shiftBit v) = true := rfl

theorem onlySets_flatMap {α : Type} (f : α → List Event) (h : ∀ x, onlySets (f x) = true) (l : List α) :
    onlySets (l.flatMap f) = true := by
  induction l with
  | nil => rfl
  | cons x l ih => simp [onlySets_append, h, ih]

theorem onlySets_shiftByte (x : Byte) : onlySets (shiftByte x) = true := onlySets_flatMap _ onlySets_shiftBit _

theorem onlySets_bankInitSeq : onlySets bankInitSeq = true := by
  simp [bankInitSeq, onlySets_append, onlySets_flatMap _ onlySets_shiftBit, latchPulse, onlySets]

theorem onlySets_pixelSeq (r : Nat) (px : Vector Byte 24) (j : Col) : onlySets (pixelSeq r px j) = true := by
  unfold pixelSeq
  rw [onlySets_append, onlySets_flatMap _ onlySets_shiftByte]
  split <;> rfl

theorem onlySets_sendRowSeq (r : Nat) (px : Vector Byte 24) : onlySets (sendRowSeq r px) = true := by
  unfold sendRowSeq
  rw [onlySets_append, onlySets_append, onlySets_flatMap _ (onlySets_pixelSeq r px)]
  rfl

@[simp] theorem waitedMs_sendRowSeq (r : Nat) (px : Vector Byte 24) : waitedMs (sendRowSeq r px) = 0 :=
  waitedMs_onlySets _ (onlySets_sendRowSeq r px)

@[simp] theorem waitedMs_bankInitSeq : waitedMs bankInitSeq = 0 := waitedMs_onlySets _ onlySets_bankInitSeq

theorem length_shiftByte (x : Byte) : (shiftByte x).length = 24 := rfl

theorem length_bankInitSeq : bankInitSeq.length = 436 := by decide +kernel

theorem length_initSeq : initSeq.length = 439 := by decide +kernel

theorem initSeq_eq : initSeq = [.config configLevels] ++ initTail := by simp [initSeq]

/-- The bytes of a row in the order they are sent: columns 8 to 1, Blue, Green, Red (20_memory.md R56). -/
def sentBytes (px : Vector Byte 24) : List Byte := (List.finRange Config.cols).flatMap fun j => pixelBytes px j.rev

/-- `sendRowSeq` in one piece: 15 bytes, the blanking, 9 bytes, the latch pulse, the row-select assert. -/
theorem sendRowSeq_eq (r : Nat) (px : Vector Byte 24) :
    sendRowSeq r px =
      ((sentBytes px).take 15).flatMap shiftByte ++ [.set (prevLine r) .lo]
        ++ ((sentBytes px).drop 15).flatMap shiftByte ++ latchPulse ++ [.set (rowLine r) .hi] := by
  have cols : List.finRange Config.cols = [0, 1, 2, 3, 4, 5, 6, 7] := by decide
  unfold sendRowSeq sentBytes pixelSeq
  rw [cols]
  simp [pixelBytes, Config.cols, Config.blankAfterPixel]

theorem length_sentBytes (px : Vector Byte 24) : (sentBytes px).length = 24 := rfl

theorem length_flatMap_shiftByte (bs : List Byte) : (bs.flatMap shiftByte).length = 24 * bs.length := by
  induction bs with
  | nil => rfl
  | cons b bs ih => simp [length_shiftByte, ih]; omega

theorem length_sendRowSeq (r : Nat) (px : Vector Byte 24) : (sendRowSeq r px).length = 580 := by
  rw [sendRowSeq_eq]
  simp only [List.length_append, length_flatMap_shiftByte, List.length_take, List.length_drop, length_sentBytes]
  rfl

end Sys2Proof.Machine.Laws
end

