-- ==== Sys2Proof/Laws/Sequencer.lean ====
section
/-! SUPPORT. What each line sequence leaves on the lines. -/

namespace Sys2Proof.Machine.Laws

theorem rowLine_is_row (i : Nat) : ∃ r, rowLine i = .row r := by
  unfold rowLine
  cases rowOf? i with
  | none => exact ⟨7, rfl⟩
  | some r => exact ⟨r, rfl⟩

theorem prevLine_is_row (i : Nat) : ∃ r, prevLine i = .row r := rowLine_is_row _

theorem rowOf?_rowNumber (r : Row) : rowOf? (rowNumber r) = some r := by
  have h := r.isLt
  simp only [Config.rows] at h
  unfold rowOf? rowNumber
  rw [dif_pos (by simp only [Config.rows]; omega)]
  simp

@[simp] theorem rowLine_rowNumber (r : Row) : rowLine (rowNumber r) = .row r := by
  unfold rowLine; rw [rowOf?_rowNumber]

/-- The blanked line of a row of the matrix is the row before it, row 8 before row 1 (40_sequencer.md R107). -/
theorem prevLine_rowNumber (r : Row) : prevLine (rowNumber r) = .row ⟨(r.val + 7) % 8, Nat.mod_lt _ (by decide)⟩ := by
  revert r; decide

theorem lastSet_shiftByte (l : Line) (x : Byte) :
    lastSet l (shiftByte x) =
      if l = .sda then some (levelOf (x.getLsbD 0)) else if l = .clk then some .lo else none := by
  cases l <;> simp [shiftByte, byteBits, shiftBit, lastSet]

theorem lastSet_shiftBytes (l : Line) (bs : List Byte) (last : Byte) :
    lastSet l ((bs ++ [last]).flatMap shiftByte) =
      if l = .sda then some (levelOf (last.getLsbD 0)) else if l = .clk then some .lo else none := by
  induction bs with
  | nil => simp [lastSet_shiftByte]
  | cons b bs ih =>
    rw [List.cons_append, List.flatMap_cons, lastSet_append, ih, lastSet_shiftByte]
    split
    · rfl
    · split <;> rfl

/-- What a row send leaves on each line (40_sequencer.md R110, R116). -/
theorem lineLevel_sendRowSeq (ls : Lines) (r : Nat) (px : Vector Byte 24) (l : Line) :
    lineLevel (runLines ls (sendRowSeq r px)) l =
      if l = rowLine r then some .hi
      else if l = prevLine r then some .lo
      else if l = .lat then some .hi
      else if l = .clk then some .lo
      else if l = .sda then some (levelOf ((Config.gamma .r px[0]).getLsbD 0))
      else lineLevel ls l := by
  have hp : (sentBytes px).take 15 = (sentBytes px).take 14 ++ [Config.gamma .r px[9]] := rfl
  have hq : (sentBytes px).drop 15 = ((sentBytes px).drop 15).take 8 ++ [Config.gamma .r px[0]] := rfl
  obtain ⟨a, ha⟩ := rowLine_is_row r
  obtain ⟨b, hb⟩ := prevLine_is_row r
  rw [lineLevel_runLines _ _ (onlySets_sendRowSeq r px), sendRowSeq_eq, hp, hq]
  simp only [lastSet_append, lastSet_shiftBytes, ha, hb, latchPulse, lastSet]
  cases l with
  | row c => by_cases h1 : Line.row c = Line.row a <;> by_cases h2 : Line.row c = Line.row b <;> simp_all [eq_comm]
  | clk => simp
  | sda => simp
  | lat => simp
  | en => simp
  | rst => simp

theorem lastSet_ones (l : Line) (n : Nat) :
    lastSet l ((List.replicate (n + 1) true).flatMap shiftBit) =
      if l = .sda then some .hi else if l = .clk then some .lo else none := by
  induction n with
  | zero => cases l <;> simp [shiftBit, lastSet, levelOf]
  | succ n ih =>
    rw [List.replicate_succ, List.flatMap_cons, lastSet_append, ih]
    cases l <;> simp [shiftBit, lastSet]

/-- What the bank initialization leaves on each line (40_sequencer.md R109). -/
theorem lineLevel_bankInitSeq (ls : Lines) (l : Line) :
    lineLevel (runLines ls bankInitSeq) l =
      if l = .en then some .hi
      else if l = .lat then some .hi
      else if l = .clk then some .lo
      else if l = .sda then some .hi
      else lineLevel ls l := by
  rw [lineLevel_runLines _ _ onlySets_bankInitSeq]
  unfold bankInitSeq
  rw [show Config.bankInitBits = 143 + 1 from rfl]
  simp only [lastSet_append, lastSet_ones, latchPulse, lastSet]
  cases l <;> simp

/-- What the events of INIT leave on each line (40_sequencer.md R111). -/
theorem lineLevel_initSeq (ls : Lines) (l : Line) :
    lineLevel (runLines ls initSeq) l =
      some (if l = .en ∨ l = .lat ∨ l = .sda ∨ l = .rst then .hi else .lo) := by
  unfold initSeq initTail
  rw [← List.cons_append, runLines_append, lineLevel_bankInitSeq]
  have hc : lineLevel (runLines ls [.config configLevels, .wait Config.stabDelayMs, .set .rst .hi]) l =
      if l = .rst then some .hi else some configLevels[(lineIndex l).val] := by
    simp only [runLines_cons, applyEvent, runLines_nil, lineLevel_set]
    simp only [eq_comm, lineLevel, Vector.getElem_map]
  rw [hc]
  clear hc
  cases l with
  | row r => revert r; decide
  | clk => decide
  | sda => decide
  | lat => decide
  | en => decide
  | rst => decide

end Sys2Proof.Machine.Laws
end

