-- ==== Sys2Proof/Laws/Exec.lean ====
section
/-! SUPPORT. For each shared operation and each meaning, once, everything it can answer. -/

namespace Sys2Proof.Machine.Laws

/-! The common checks. -/

theorem whenRunning_next (s t : State) (body : Host.Outcome State Fault Refusal) :
    whenRunning s body = .next t ↔ s.fault = none ∧ body = .next t := by
  unfold whenRunning
  cases s.fault <;> simp

theorem whenRunning_running (s : State) (body : Host.Outcome State Fault Refusal) (h : s.fault = none) :
    whenRunning s body = body := by
  unfold whenRunning; rw [h]

/-! The display engine. -/

@[simp] theorem performAll_nil (s : State) : s.performAll [] = s := rfl

@[simp] theorem performAll_cons (s : State) (k : Task) (ts : List Task) :
    s.performAll (k :: ts) = (s.perform k).performAll ts := rfl

theorem performAll_append (s : State) (a b : List Task) : s.performAll (a ++ b) = (s.performAll a).performAll b := by
  simp [State.performAll, List.foldl_append]

theorem performAll_show (s : State) (l : List Row) : s.performAll (l.map Task.showRow) = l.foldl State.showRow s := by
  induction l generalizing s with
  | nil => rfl
  | cons r l ih => exact ih _

/-- What an operation of the display engine can answer: the fault its checks give, or the end of its tasks. -/
theorem execute_next (s t : State) (w : Word) (p : Plan) :
    s.execute w p = .next t ↔ s.fault = none ∧
      ((∃ c, p = .raises c ∧ t = s.raise c w) ∨ ∃ ts, p = .runs ts ∧ t = s.performAll ts) := by
  unfold State.execute
  rw [whenRunning_next]
  cases p <;> simp [eq_comm (a := t)]

/-- The same for an operation that needs DRV_READY. -/
theorem execute_ifReady_next (s t : State) (w : Word) (p : Plan) :
    s.execute w (s.ifReady p) = .next t ↔ s.fault = none ∧
      (s.drvReady = true ∧ ((∃ c, p = .raises c ∧ t = s.raise c w) ∨ ∃ ts, p = .runs ts ∧ t = s.performAll ts) ∨
        s.drvReady = false ∧ t = s.raise .notReady w) := by
  rw [execute_next]
  unfold State.ifReady
  cases s.drvReady <;> simp

/-! Operands. -/

theorem rowOf?_some (n : Nat) (h : 1 ≤ n ∧ n ≤ 8) : rowOf? n = some ⟨n - 1, by simp only [Config.rows]; omega⟩ := by
  unfold rowOf?; rw [dif_pos h]

theorem rowOf?_none (n : Nat) (h : ¬ (1 ≤ n ∧ n ≤ 8)) : rowOf? n = none := by
  unfold rowOf?; rw [dif_neg h]

theorem cellOf?_some (i : Nat) (h : i < 24) : cellOf? i = some ⟨i, h⟩ := by
  unfold cellOf?; rw [dif_pos h]

theorem cellOf?_none (i : Nat) (h : ¬ i < 24) : cellOf? i = none := by
  unfold cellOf?; rw [dif_neg h]

/-! The row buffer. -/

theorem rowbufBytes?_some (s : State) (px : Vector Byte 24) :
    s.rowbufBytes? = some px ↔ s.rowbuf = px.map some := by
  unfold State.rowbufBytes?
  constructor
  · intro h
    split at h
    · rename_i hs
      simp only [Option.some.injEq] at h
      subst h
      ext i hi : 1
      simp
    · exact absurd h (by simp)
  · intro h
    rw [dif_pos (by intro i; simp [h])]
    simp only [Option.some.injEq]
    ext i hi : 1
    simp [h]

theorem rowbufBytes?_none (s : State) :
    s.rowbufBytes? = none ↔ ∃ i : Fin 24, s.rowbuf[i.val] = none := by
  unfold State.rowbufBytes?
  split
  · rename_i h
    simp only [reduceCtorEq, false_iff, not_exists]
    intro i hi
    have := h i
    simp [hi] at this
  · rename_i h
    simp only [not_forall] at h
    obtain ⟨i, hi⟩ := h
    simp only [true_iff]
    exact ⟨i, by simpa using hi⟩

/-- After a load ROWBUF holds the row's 24 bytes, which is what the send reads (42_row_scan.md R160, R161). -/
theorem rowbufBytes?_loadRow (s : State) (r : Row) : (s.loadRow r).rowbufBytes? = some (s.frameRow r) := by
  rw [rowbufBytes?_some]; rfl

/-! The pool. -/

theorem isFree_iff (s : State) (x : Slot) : s.isFree x = true ↔ x ≠ s.cur ∧ x ≠ s.rcv ∧ s.pend ≠ some x := by
  unfold State.isFree
  simp only [Bool.and_eq_true, decide_eq_true_eq, and_assoc]

/-- What Alloc can answer: a free slot, the lowest, or none if every slot has a role (20_memory.md R58). -/
theorem alloc_cases (s : State) :
    (∃ x, s.alloc = some x ∧ s.isFree x = true ∧ ∀ y, s.isFree y = true → x ≤ y) ∨
      (s.alloc = none ∧ ∀ y, s.isFree y = false) := by
  unfold State.alloc State.freeSlots
  have all : ∀ y : Slot, y = 0 ∨ y = 1 ∨ y = 2 := by decide
  cases h0 : s.isFree 0
  · cases h1 : s.isFree 1
    · cases h2 : s.isFree 2
      · refine .inr ⟨by simp [h0, h1, h2], fun y => ?_⟩
        rcases all y with rfl | rfl | rfl <;> assumption
      · refine .inl ⟨2, by simp [h0, h1, h2], h2, fun y hy => ?_⟩
        rcases all y with rfl | rfl | rfl <;> simp_all
    · refine .inl ⟨1, by simp [h0, h1], h1, fun y hy => ?_⟩
      rcases all y with rfl | rfl | rfl <;> simp_all
  · exact .inl ⟨0, by simp [h0], h0, fun y _ => Fin.zero_le y⟩

/-- The first step of a tick: the roles after it (42_row_scan.md R165, R167). -/
theorem performAll_boundaryTasks (s : State) : s.performAll (boundaryTasks s.nextRow) =
    { s with cur := tickSlot s, pend := if s.nextRow = 0 then none else s.pend } := by
  have h0 : rowNumber s.nextRow = 1 ↔ s.nextRow = 0 := by
    rw [Fin.ext_iff]; show s.nextRow.val + 1 = 1 ↔ s.nextRow.val = 0; omega
  unfold boundaryTasks tickSlot
  by_cases h : s.nextRow = 0
  · rw [if_pos (h0.2 h)]
    simp only [performAll_cons, performAll_nil, State.perform, State.handoffSchedulerSide, if_pos h]
    cases hp : s.pend with
    | none => cases s; simp_all
    | some p => rfl
  · rw [if_neg fun e => h (h0.1 e)]
    simp [h]

/-! Meanings: what each answers, once and for all. -/

theorem execInit_next (s t : State) :
    execInit s = .next t ↔ s.fault = none ∧
      (s.drvReady = true ∧ t = s.raise .reinit (encode .init) ∨
        s.drvReady = false ∧ t = { s.emit initSeq with lineMode := .outputHighDrive, drvReady := true }) := by
  unfold execInit State.planInit
  rw [execute_next, initSeq_eq, emit_append]
  cases s.drvReady <;> simp [State.perform]

theorem execBankInit_next (s t : State) :
    execBankInit s = .next t ↔ s.fault = none ∧
      (s.drvReady = true ∧ t = s.emit bankInitSeq ∨
        s.drvReady = false ∧ t = s.raise .notReady (encode .bankInit)) := by
  unfold execBankInit State.planBankInit
  rw [execute_ifReady_next]
  simp [State.perform]

theorem execWriteRowbuf_next (cell : Nat) (value : Byte) (s t : State) :
    execWriteRowbuf cell value s = .next t ↔ s.fault = none ∧
      (s.drvReady = true ∧ (∃ i, cellOf? cell = some i ∧ t = { s with rowbuf := s.rowbuf.set i.val (some value) }) ∨
        s.drvReady = true ∧ cellOf? cell = none ∧ t = s.raise .operandRange (encode (.writeRowbuf cell value)) ∨
        s.drvReady = false ∧ t = s.raise .notReady (encode (.writeRowbuf cell value))) := by
  unfold execWriteRowbuf State.planWriteRowbuf
  rw [execute_ifReady_next]
  cases h : cellOf? cell <;> simp [State.perform]

theorem execSendRow_next (row : Nat) (s t : State) :
    execSendRow row s = .next t ↔ s.fault = none ∧
      (s.drvReady = true ∧ (∃ px, s.rowbufBytes? = some px ∧ t = s.emit (sendRowSeq row px)) ∨
        s.drvReady = true ∧ s.rowbufBytes? = none ∧ t = s.raise .rowbufUnwritten (encode (.sendRow row)) ∨
        s.drvReady = false ∧ t = s.raise .notReady (encode (.sendRow row))) := by
  unfold execSendRow State.planSendRow
  rw [execute_ifReady_next]
  cases h : s.rowbufBytes? <;> simp [State.perform]

theorem execDisplayFull_next (s t : State) :
    execDisplayFull s = .next t ↔ s.fault = none ∧
      (s.drvReady = true ∧ t = (List.finRange Config.rows).foldl State.showRow s ∨
        s.drvReady = false ∧ t = s.raise .notReady (encode .displayFull)) := by
  unfold execDisplayFull State.planDisplayFull
  rw [execute_ifReady_next]
  simp [performAll_show]

theorem execLoadRow_next (row : Nat) (s t : State) :
    execLoadRow row s = .next t ↔ s.fault = none ∧
      (s.drvReady = true ∧ (∃ r, rowOf? row = some r ∧ t = s.loadRow r) ∨
        s.drvReady = true ∧ rowOf? row = none ∧ t = s.raise .frameAddr (encode (.loadRow row)) ∨
        s.drvReady = false ∧ t = s.raise .notReady (encode (.loadRow row))) := by
  unfold execLoadRow State.planLoadRow
  rw [execute_ifReady_next]
  cases h : rowOf? row <;> simp [State.perform]

theorem execArm_next (s t : State) :
    execArm s = .next t ↔ s.fault = none ∧
      (s.drvReady = true ∧ s.armed = true ∧ t = s.raise .rearm (encode .arm) ∨
        s.drvReady = true ∧ s.armed = false ∧ t = s.armScan ∨
        s.drvReady = false ∧ t = s.raise .notReady (encode .arm)) := by
  unfold execArm State.planArm
  rw [execute_ifReady_next]
  cases h : s.armed <;> simp [State.perform]

theorem execTick_next (s t : State) :
    execTick s = .next t ↔ s.fault = none ∧
      (s.drvReady = true ∧
          t = (State.showRow { s with cur := tickSlot s, pend := if s.nextRow = 0 then none else s.pend }
            s.nextRow).advanceScan ∨
        s.drvReady = false ∧ t = s.raise .notReady (encode .tick)) := by
  unfold execTick State.planTick
  rw [execute_ifReady_next]
  simp [performAll_append, performAll_boundaryTasks, State.perform]

theorem execRxByte_next (value : Byte) (s t : State) :
    execRxByte value s = .next t ↔ s.fault = none ∧
      (value = Config.resyncByte ∧ t = { s with cursor := 0 } ∨
        value ≠ Config.resyncByte ∧ (∃ h : s.cursor.val + 1 < Config.frameBytes,
          t = { s.frameWrite s.rcv s.cursor value with cursor := ⟨s.cursor.val + 1, h⟩ }) ∨
        value ≠ Config.resyncByte ∧ ¬ s.cursor.val + 1 < Config.frameBytes ∧
          t = (s.frameWrite s.rcv s.cursor value).completeFrame (encode (.rxByte value))) := by
  unfold execRxByte
  rw [whenRunning_next]
  refine and_congr_right fun _ => ?_
  split
  · rename_i hb
    simp only [hb, Host.Outcome.next.injEq, eq_comm, true_and, ne_eq, not_true_eq_false, false_and, or_false]
  · rename_i hb
    split
    · rename_i hc
      simp only [hb, hc, Host.Outcome.next.injEq, eq_comm, false_and, ne_eq, not_false_eq_true, true_and, false_or,
        not_true_eq_false, or_false, exists_true_left]
    · rename_i hc
      simp only [hb, hc, Host.Outcome.next.injEq, eq_comm, false_and, ne_eq, not_false_eq_true, true_and, false_or,
        IsEmpty.exists_iff]

/-- What the completion of a frame can leave (41_host_port.md R143). -/
theorem completeFrame_cases (s : State) (w : Word) :
    (∃ x, s.installPending.alloc = some x ∧
        s.completeFrame w = State.freshFill { s.installPending with rcv := x, cursor := 0 }) ∨
      (s.installPending.alloc = none ∧ s.completeFrame w = s.installPending.raise .poolExhausted w) := by
  unfold State.completeFrame
  cases h : s.installPending.alloc with
  | some x => exact .inl ⟨x, rfl, rfl⟩
  | none => exact .inr ⟨rfl, rfl⟩

/-- Rows sent one after another: ROWBUF ends holding the last row sent, and the events are those of each row of the current
frame in turn (40_sequencer.md R118). -/
theorem fold_showRow (l : List Row) (s : State) : ∃ rb, l.foldl State.showRow s =
    { s with
      rowbuf := rb
      lines := runLines s.lines (l.flatMap fun r => sendRowSeq (rowNumber r) (s.frameRow r))
      trace := s.trace ++ l.flatMap fun r => sendRowSeq (rowNumber r) (s.frameRow r) } ∧
    (∀ h : l ≠ [], rb = (s.frameRow (l.getLast h)).map some) ∧ (l = [] → rb = s.rowbuf) := by
  induction l generalizing s with
  | nil => exact ⟨s.rowbuf, by simp, by simp, by simp⟩
  | cons r l ih =>
    obtain ⟨rb, h, h1, h2⟩ := ih (s.showRow r)
    have hf : ∀ x, (s.showRow r).frameRow x = s.frameRow x := fun x => by
      unfold State.frameRow State.frameRead; simp
    refine ⟨rb, ?_, fun _ => ?_, by simp⟩
    · rw [List.foldl_cons, h]
      simp only [hf]
      simp [runLines_append]
    · by_cases hl : l = []
      · subst hl; rw [h2 rfl]; simp
      · rw [h1 hl, List.getLast_cons hl, hf]

end Sys2Proof.Machine.Laws
end

