-- ==== Sys2Proof/Laws/Engine.lean ====
section
/-! SUPPORT. What the display engine does when its operation is cut into actions. -/

namespace Sys2Proof.Machine.Laws

/-! One action writes nothing of the producer's, and nothing of the environment's but the time. -/

@[simp] theorem act_mem (s : State) : s.act.mem = s.mem := by unfold State.act; split <;> simp [State.perform]
@[simp] theorem act_rcv (s : State) : s.act.rcv = s.rcv := by unfold State.act; split <;> simp [State.perform]
@[simp] theorem act_fault (s : State) : s.act.fault = s.fault := by unfold State.act; split <;> simp [State.perform]
@[simp] theorem act_cursor (s : State) : s.act.cursor = s.cursor := by unfold State.act; split <;> simp [State.perform]
@[simp] theorem act_cmdPort (s : State) : s.act.cmdPort = s.cmdPort := by unfold State.act; split <;> simp [State.perform]
@[simp] theorem act_bytePort (s : State) : s.act.bytePort = s.bytePort := by unfold State.act; split <;> simp [State.perform]
@[simp] theorem act_input (s : State) : s.act.input = s.input := by unfold State.act; split <;> simp [State.perform]
@[simp] theorem act_breakAfter (s : State) : s.act.breakAfter = s.breakAfter := by
  unfold State.act; split <;> simp [State.perform]
@[simp] theorem act_turn (s : State) : s.act.turn = s.turn := by unfold State.act; split <;> simp [State.perform]
@[simp] theorem act_moment (s : State) : s.act.moment = s.moment := by unfold State.act; split <;> simp [State.perform]

/-- Between operations there is no action to do. -/
theorem act_idle (s : State) (h : s.todo = []) : s.act = s := by unfold State.act; simp [h]

/-- A task does not see what is to be done after it. -/
theorem perform_todo (s : State) (k : Task) (ts : List Task) :
    State.perform { s with todo := ts } k = { s.perform k with todo := ts } := by
  rcases s with ⟨_, _, _, _, _, _, _, _, _, _, pend, _, _, _, _, _, _, _, _, _, _, _⟩
  cases k <;> cases pend <;> rfl

theorem performAll_todo (s : State) (ks ts : List Task) :
    State.performAll { s with todo := ts } ks = { s.performAll ks with todo := ts } := by
  induction ks generalizing s with
  | nil => rfl
  | cons k ks ih => rw [performAll_cons, perform_todo, ih, performAll_cons]

/-- An action does not change what the operation leaves in the end. -/
theorem finish_act (s : State) : s.act.finish = s.finish := by
  obtain ⟨ts, u, rfl⟩ : ∃ ts u, s = { u with todo := ts } := ⟨s.todo, s, rfl⟩
  rcases ts with _ | ⟨k, rest⟩
  · rfl
  have cut : ∀ a b : State, ∀ ts', a = { b with todo := ts' } →
      ({ a.performAll rest with todo := [] } : State) = { b.performAll rest with todo := [] } :=
    fun a b ts' h => by rw [h, performAll_todo]
  cases k with
  | emit es =>
    cases es with
    | nil => exact cut _ _ rest (by rw [State.perform, emit_nil]; rfl)
    | cons e es =>
      exact cut _ _ (.emit es :: rest) (congrArg (fun x : State => { x with todo := .emit es :: rest })
        (emit_append { u with todo := .emit (e :: es) :: rest } [e] es).symm)
  | showRow r => exact cut _ _ (.emit (sendRowSeq (rowNumber r) (u.frameRow r)) :: rest) rfl
  | configured => exact cut _ _ rest rfl
  | ready => exact cut _ _ rest rfl
  | store i v => exact cut _ _ rest rfl
  | load r => exact cut _ _ rest rfl
  | arm => exact cut _ _ rest rfl
  | handoff => exact cut _ _ rest rfl
  | advance => exact cut _ _ rest rfl

/-! Several actions. -/

/-- What every action keeps, several keep. -/
theorem acts_keep (P : State → Prop) (h : ∀ s, P s → P s.act) : ∀ (n : Nat) (s : State), P s → P (State.acts n s)
  | 0, _, hs => hs
  | n + 1, s, hs => acts_keep P h n s.act (h s hs)

theorem acts_idle (n : Nat) (s : State) (h : s.todo = []) : State.acts n s = s := by
  induction n with
  | zero => rfl
  | succ n ih => rw [State.acts, act_idle s h, ih]

theorem finish_acts (n : Nat) (s : State) : (State.acts n s).finish = s.finish := by
  induction n generalizing s with
  | zero => rfl
  | succ n ih => rw [State.acts, ih, finish_act]

theorem finish_idle (s : State) (h : s.todo = []) : s.finish = s := by
  unfold State.finish; rw [h, performAll_nil, ← h]

/-- An operation that starts between operations and runs to its end leaves what its tasks leave. -/
theorem finish_start (s : State) (ts : List Task) (h : s.todo = []) :
    State.finish { s with todo := ts } = s.performAll ts := by
  have idle : s = { s with todo := [] } := by rw [← h]
  unfold State.finish
  rw [performAll_todo]
  conv => rhs; rw [idle, performAll_todo]

/-- How many actions a task takes. -/
def actionsOf : Task → Nat
  | .emit es => es.length + 1
  | .showRow _ => 582
  | _ => 1

/-- How many actions tasks take. -/
def actionsOfAll (ts : List Task) : Nat := (ts.map actionsOf).sum

/-- An action of a running operation brings its end nearer. -/
theorem actions_act (s : State) (h : s.todo ≠ []) : actionsOfAll s.act.todo + 1 = actionsOfAll s.todo := by
  cases ht : s.todo with
  | nil => exact absurd ht h
  | cons k rest =>
    unfold State.act
    rw [ht]
    cases k with
    | emit es => cases es <;> simp [actionsOfAll, actionsOf] <;> omega
    | showRow r => simp [actionsOfAll, actionsOf, length_sendRowSeq]; omega
    | configured => simp [actionsOfAll, actionsOf]; omega
    | ready => simp [actionsOfAll, actionsOf]; omega
    | store i v => simp [actionsOfAll, actionsOf]; omega
    | load r => simp [actionsOfAll, actionsOf]; omega
    | arm => simp [actionsOfAll, actionsOf]; omega
    | handoff => simp [actionsOfAll, actionsOf]; omega
    | advance => simp [actionsOfAll, actionsOf]; omega

/-- After enough actions the operation has ended, as if it had run whole. -/
theorem acts_finish (n : Nat) (s : State) (h : actionsOfAll s.todo ≤ n) : State.acts n s = s.finish := by
  induction n generalizing s with
  | zero =>
    have ht : s.todo = [] := by
      cases ht : s.todo with
      | nil => rfl
      | cons k rest => rw [ht] at h; cases k <;> simp [actionsOfAll, actionsOf] at h
    rw [finish_idle s ht]; rfl
  | succ n ih =>
    by_cases ht : s.todo = []
    · rw [acts_idle _ s ht, finish_idle s ht]
    · rw [State.acts, ih _ (by have := actions_act s ht; omega), finish_act]

/-- A running operation goes on by some number of actions. -/
theorem resume_acts (s : State) : ∃ n, s.resume = State.acts n s := by
  unfold State.resume
  split
  · exact ⟨actionsOfAll s.todo, (acts_finish _ s le_rfl).symm⟩
  · rename_i n _; exact ⟨n, rfl⟩

/-- An operation that raises no fault is its tasks: run whole it is as far as its actions bring it. -/
theorem exec_planOf (i : Instr) (s : State) (p : Plan) (h : planOf i s = some p) : exec i s = s.execute (encode i) p := by
  cases i <;> simp only [planOf, Option.some.injEq, reduceCtorEq] at h <;> subst h <;> rfl

/-- Only operations of the display engine have tasks. -/
theorem planOf_engine (i : Instr) (s : State) (p : Plan) (h : planOf i s = some p) : receivedByte i = none := by
  cases i <;> simp only [planOf, reduceCtorEq] at h <;> rfl

/-- Every operation that completes is a received byte, or a fault of its checks, or its tasks: then, from between operations,
as many of its actions as there are. -/
theorem exec_cases (i : Instr) (s t : State) (h : exec i s = .next t) :
    (∃ b, i = .rxByte b) ∨ (∃ c, planOf i s = some (.raises c) ∧ t = s.raise c (encode i)) ∨
      ∃ ts, planOf i s = some (.runs ts) ∧ ∃ n, s.todo = [] → t = State.acts n { s with todo := ts } := by
  have engine : ∀ p, planOf i s = some p →
      (∃ c, planOf i s = some (.raises c) ∧ t = s.raise c (encode i)) ∨
        ∃ ts, planOf i s = some (.runs ts) ∧ ∃ n, s.todo = [] → t = State.acts n { s with todo := ts } := by
    intro p hp
    rw [exec_planOf i s p hp, execute_next] at h
    rcases h.2 with ⟨c, rfl, ht⟩ | ⟨ts, rfl, ht⟩
    · exact .inl ⟨c, hp, ht⟩
    · refine .inr ⟨ts, hp, actionsOfAll ts, fun h0 => ?_⟩
      rw [acts_finish (actionsOfAll ts) { s with todo := ts } le_rfl, ht, finish_start s ts h0]
  cases i with
  | rxByte b => exact .inl ⟨b, rfl⟩
  | init => exact .inr (engine _ rfl)
  | bankInit => exact .inr (engine _ rfl)
  | writeRowbuf cell value => exact .inr (engine _ rfl)
  | loadRow row => exact .inr (engine _ rfl)
  | sendRow row => exact .inr (engine _ rfl)
  | displayFull => exact .inr (engine _ rfl)
  | arm => exact .inr (engine _ rfl)
  | tick => exact .inr (engine _ rfl)

end Sys2Proof.Machine.Laws
end

