-- ==== Sys2Proof/Laws/PerInstr.lean ====
section
/-! SUPPORT. For each operation: the fields of its word are its operation code and operands, with Z = 0
(30_encoding.md R80, R87). -/

namespace Sys2Proof.Laws.WordFields

/-- The four fields of the word of an operation. -/
def Statement (i : Instr) : Prop :=
  opField (encode i) = opcode i ∧ aField (encode i) = aOperand i ∧ zField (encode i) = 0#8 ∧ bField (encode i) = bOperand i

theorem init : Statement .init := by
  simp [Statement, encode, opField_packWord, aField_packWord, zField_packWord, bField_packWord]
theorem bankInit : Statement .bankInit := by
  simp [Statement, encode, opField_packWord, aField_packWord, zField_packWord, bField_packWord]
theorem writeRowbuf (cell : Nat) (value : Byte) : Statement (.writeRowbuf cell value) := by
  simp [Statement, encode, opField_packWord, aField_packWord, zField_packWord, bField_packWord]
theorem loadRow (row : Nat) : Statement (.loadRow row) := by
  simp [Statement, encode, opField_packWord, aField_packWord, zField_packWord, bField_packWord]
theorem sendRow (row : Nat) : Statement (.sendRow row) := by
  simp [Statement, encode, opField_packWord, aField_packWord, zField_packWord, bField_packWord]
theorem displayFull : Statement .displayFull := by
  simp [Statement, encode, opField_packWord, aField_packWord, zField_packWord, bField_packWord]
theorem arm : Statement .arm := by
  simp [Statement, encode, opField_packWord, aField_packWord, zField_packWord, bField_packWord]
theorem tick : Statement .tick := by
  simp [Statement, encode, opField_packWord, aField_packWord, zField_packWord, bField_packWord]
theorem rxByte (value : Byte) : Statement (.rxByte value) := by
  simp [Statement, encode, opField_packWord, aField_packWord, zField_packWord, bField_packWord]

end Sys2Proof.Laws.WordFields
end

