-- ==== Sys2Proof/Laws/Settles.lean ====
section
/-! SUPPORT. What `Settles` depends on, and that an action keeps it. -/

namespace Sys2Proof.Machine.Laws

/-- Two states that agree on what `State.Resting` speaks of. -/
structure Same (s t : State) : Prop where
  lines : t.lines = s.lines
  lineMode : t.lineMode = s.lineMode
  drvReady : t.drvReady = s.drvReady
  armed : t.armed = s.armed
  nextRow : t.nextRow = s.nextRow
  deadline : t.deadline = s.deadline
  trace : t.trace = s.trace

theorem resting_congr (s t : State) (h : Same s t) (hs : s.Resting) : t.Resting := by
  obtain ⟨h1, h2, h3, h4, h5, h6, h7⟩ := h
  obtain ⟨a, b, c, d, e⟩ := hs
  simp only [State.line] at e
  constructor <;> simp_all [State.line]

theorem same_emit (s t : State) (h : Same s t) (es) : Same (s.emit es) (t.emit es) := by
  obtain ⟨h1, h2, h3, h4, h5, h6, h7⟩ := h
  constructor <;> simp [*]

/-- `Settles` sees of a state only what `State.Resting` speaks of. -/
theorem settles_congr (ts : List Task) :
    ∀ (s t : State), Same s t → Settles State.Resting ts s → Settles State.Resting ts t := by
  induction ts with
  | nil => exact fun s t h hs => resting_congr s t h hs
  | cons k ts ih =>
    intro s t h hs
    obtain ⟨h1, h2, h3, h4, h5, h6, h7⟩ := id h
    cases k with
    | emit es => exact ih _ _ (by exact same_emit s t h es) hs
    | configured => exact ih _ _ (by constructor <;> simp [*]) hs
    | ready => exact ih _ _ (by constructor <;> simp [*]) hs
    | store i v => exact ih _ _ (by constructor <;> simp [*]) hs
    | load r => exact fun px => ih _ _ (by constructor <;> simp [*]) (hs px)
    | showRow r => exact fun px => ih _ _ (by refine same_emit _ _ ?_ _; constructor <;> simp [*]) (hs px)
    | arm => exact fun d => ih _ _ (by constructor <;> simp [*]) (hs d)
    | handoff => exact fun c p => ih _ _ (by constructor <;> simp [*]) (hs c p)
    | advance => exact ih _ _ (by constructor <;> simp [*]) hs

/-- An action keeps where the running operation leads. -/
theorem settles_act (s : State) (h : Settles State.Resting s.todo s) : Settles State.Resting s.act.todo s.act := by
  obtain ⟨ts, u, rfl⟩ : ∃ ts u, s = { u with todo := ts } := ⟨s.todo, s, rfl⟩
  rcases ts with _ | ⟨k, rest⟩
  · exact h
  cases k with
  | emit es =>
    cases es with
    | nil =>
      refine settles_congr rest _ _ ?_ (show Settles _ rest (State.emit { u with todo := .emit [] :: rest } []) from h)
      rw [emit_nil]; constructor <;> rfl
    | cons e es =>
      refine settles_congr rest (State.emit { u with todo := .emit (e :: es) :: rest } ([e] ++ es)) _ ?_ h
      rw [emit_append]; constructor <;> rfl
  | configured => exact settles_congr rest _ _ (by constructor <;> rfl) h
  | ready => exact settles_congr rest _ _ (by constructor <;> rfl) h
  | store i v => exact settles_congr rest _ _ (by constructor <;> rfl) h
  | load r => exact settles_congr rest _ _ (by constructor <;> rfl) (h (State.frameRow u r))
  | showRow r => exact settles_congr rest _ _ (by constructor <;> rfl) (h (State.frameRow u r))
  | arm => exact settles_congr rest _ _ (by constructor <;> rfl) (h (firstDeadline u.now))
  | handoff =>
    refine settles_congr rest _ _ ?_ (h u.cur u.pend)
    show Same _ { State.perform _ _ with todo := rest }
    simp only [State.perform]
    constructor <;> simp
  | advance => exact settles_congr rest _ _ (by constructor <;> rfl) h

end Sys2Proof.Machine.Laws
end

