-- ==== Sys2Proof/Laws/Step.lean ====
section
/-! SUPPORT. Everything a step can do. -/

namespace Sys2Proof.Machine.Laws

/-- What is taken, and from where: a waiting byte; or, between operations, a due tick or a waiting command
(42_row_scan.md R166). -/
theorem fetch_cases (s s' : State) (p : Path) (w : Word) (h : s.fetch = some (p, w, s')) :
    (p = .byte ∧ ∃ rest, s.bytePort = w :: rest ∧ s' = { s with bytePort := rest }) ∨
      (p = .timer ∧ s.bytePort = [] ∧ s.todo = [] ∧ s.tickDue = true ∧ w = tickWord ∧ s' = s) ∨
      (p = .cmd ∧ s.bytePort = [] ∧ s.todo = [] ∧ ∃ rest, s.cmdPort = w :: rest ∧ s' = { s with cmdPort := rest }) := by
  have tick : s.fetchTick = some (p, w, s') → s.tickDue = true ∧ p = .timer ∧ w = tickWord ∧ s' = s := by
    unfold State.fetchTick
    split
    · rename_i hd
      simp only [Option.some.injEq, Prod.mk.injEq]
      rintro ⟨rfl, rfl, rfl⟩
      exact ⟨hd, rfl, rfl, rfl⟩
    · simp
  have command : s.fetchCommand = some (p, w, s') →
      p = .cmd ∧ ∃ rest, s.cmdPort = w :: rest ∧ s' = { s with cmdPort := rest } := by
    unfold State.fetchCommand
    split
    · rename_i v rest hv
      simp only [Option.some.injEq, Prod.mk.injEq]
      rintro ⟨rfl, rfl, rfl⟩
      exact ⟨rfl, rest, hv, rfl⟩
    · simp
  unfold State.fetch State.fetchByte at h
  split at h
  · rename_i v rest hv
    simp only [Option.some_or, Option.some.injEq, Prod.mk.injEq] at h
    obtain ⟨rfl, rfl, rfl⟩ := h
    exact .inl ⟨rfl, rest, hv, rfl⟩
  · rename_i hb
    simp only [Option.none_or, State.engineIdle, List.isEmpty_iff] at h
    split at h
    · rename_i ht
      have h' : s.fetchTick = some (p, w, s') ∨ s.fetchCommand = some (p, w, s') := by
        unfold State.fetchEngine at h
        split at h <;> rw [Option.or_eq_some_iff] at h <;> tauto
      rcases h' with h' | h'
      · obtain ⟨hd, hp, hw, hs⟩ := tick h'
        exact .inr (.inl ⟨hp, hb, ht, hd, hw, hs⟩)
      · obtain ⟨hp, rest, hw, hs⟩ := command h'
        exact .inr (.inr ⟨hp, hb, ht, rest, hw, hs⟩)
    · simp at h

/-- Taking a word changes the ports only. -/
theorem fetch_frame (s s' : State) (p : Path) (w : Word) (h : s.fetch = some (p, w, s')) :
    ∃ bytes cmds, s' = { s with bytePort := bytes, cmdPort := cmds } := by
  rcases fetch_cases s s' p w h with ⟨_, rest, _, rfl⟩ | ⟨_, _, _, _, _, rfl⟩ | ⟨_, _, _, rest, _, rfl⟩
  · exact ⟨rest, s.cmdPort, rfl⟩
  · exact ⟨s'.bytePort, s'.cmdPort, rfl⟩
  · exact ⟨s.bytePort, rest, rfl⟩

theorem thenPassTime_next (o : Host.Outcome State Fault Refusal) (t : State) :
    thenPassTime o = .next t ↔ ∃ u, o = .next u ∧ t = u.passTime := by
  cases o <;> simp [thenPassTime, eq_comm]

/-- What a taken word can lead to: its operation whole, the first actions of its operation, or ILLEGAL_CMD. -/
theorem takeWord_cases (s u : State) (p : Path) (w : Word) (h : s.takeWord p w = .next u) :
    (∃ i, decode p w = .legal i ∧ exec i s = .next u) ∨
      (∃ i n ts, decode p w = .legal i ∧ s.fault = none ∧ s.breakAfter = some n ∧ planOf i s = some (.runs ts) ∧
        u = State.acts n { s with todo := ts }) ∨
      (∃ why, decode p w = .illegal why ∧ s.fault = none ∧ u = s.raise .illegalCmd w) := by
  have illegal : ∀ why, decode p w = .illegal why → takeIllegal s w = .next u →
      ∃ why, decode p w = .illegal why ∧ s.fault = none ∧ u = s.raise .illegalCmd w := by
    intro why hd h
    unfold takeIllegal at h
    rw [whenRunning_next] at h
    exact ⟨why, hd, h.1, by simpa using h.2.symm⟩
  unfold State.takeWord at h
  split at h
  · rename_i n hb
    split at h
    · rename_i i hd
      unfold runPart at h
      split at h
      · rename_i ts hp
        rw [whenRunning_next] at h
        exact .inr (.inl ⟨i, n, ts, hd, h.1, hb, hp, by simpa using h.2.symm⟩)
      · exact .inl ⟨i, hd, h⟩
      · exact .inl ⟨i, hd, h⟩
    · rename_i why hd
      exact .inr (.inr (illegal why hd h))
  · unfold runWord at h
    split at h
    · rename_i i hd
      exact .inl ⟨i, hd, h⟩
    · rename_i why hd
      exact .inr (.inr (illegal why hd h))

/-- The byte port carries RX_BYTE only (30_encoding.md R83). -/
theorem decode_byte (w : Word) (i : Instr) (h : decode .byte w = .legal i) : receivedByte i ≠ none := by
  simp only [decode, accept] at h
  repeat' split at h
  all_goals simp_all
  all_goals (subst h; simp [receivedByte])

/-- A step that gives a next state: a step of the environment, a word taken, or the running operation going on; then time
passes. -/
theorem step_cases (s t : State) (h : step s = .next t) :
    s.fault = none ∧ ∃ u, t = u.passTime ∧
      ((∃ x, s.input = some x ∧ u = s.deliver x) ∨
        (s.input = none ∧ s.fetch = none ∧ u = s.resume) ∨
        (s.input = none ∧ ∃ p w s', s.fetch = some (p, w, s') ∧ s'.takeWord p w = .next u)) := by
  unfold step at h
  rw [whenRunning_next] at h
  obtain ⟨hf, h⟩ := h
  refine ⟨hf, ?_⟩
  split at h
  · rename_i x hx
    rw [thenPassTime_next] at h
    obtain ⟨u, hu, rfl⟩ := h
    exact ⟨u, rfl, .inl ⟨x, hx, by simpa using hu.symm⟩⟩
  · rename_i hx
    split at h
    · rename_i p w s' hs
      rw [thenPassTime_next] at h
      obtain ⟨u, hu, rfl⟩ := h
      exact ⟨u, rfl, .inr (.inr ⟨hx, p, w, s', hs, hu⟩)⟩
    · rename_i hs
      rw [thenPassTime_next] at h
      obtain ⟨u, hu, rfl⟩ := h
      exact ⟨u, rfl, .inr (.inl ⟨hx, hs, by simpa using hu.symm⟩)⟩

/-- What the environment, the taking of a word, the start and each action of an operation, a fault, and a received byte keep,
every step keeps. An operation starts between operations. -/
theorem step_keeps (P : State → Prop)
    (pass : ∀ s, P s → P s.passTime)
    (arrive : ∀ s x, P s → P (s.deliver x))
    (take : ∀ s bytes cmds, P s → P { s with bytePort := bytes, cmdPort := cmds })
    (start : ∀ i s ts, P s → s.todo = [] → planOf i s = some (.runs ts) → P { s with todo := ts })
    (act : ∀ s, P s → P s.act)
    (fault : ∀ s c w, P s → P (s.raise c w))
    (byte : ∀ b s t, P s → execRxByte b s = .next t → P t)
    (s t : State) (hs : P s) (h : step s = .next t) : P t := by
  obtain ⟨_, u, ht, h⟩ := step_cases s t h
  rw [ht]
  apply pass
  rcases h with ⟨x, _, rfl⟩ | ⟨_, _, rfl⟩ | ⟨_, p, w, s', hf, hu⟩
  · exact arrive s x hs
  · obtain ⟨n, hn⟩ := resume_acts s
    rw [hn]
    exact acts_keep P act n s hs
  · obtain ⟨bytes, cmds, rfl⟩ := fetch_frame s s' p w hf
    have hs' := take s bytes cmds hs
    have idle : ∀ i, decode p w = .legal i → receivedByte i = none → s.todo = [] := by
      intro i hi hr
      rcases fetch_cases _ _ _ _ hf with ⟨rfl, _⟩ | ⟨_, _, ht, _⟩ | ⟨_, _, ht, _⟩
      · exact absurd hr (decode_byte w i hi)
      · exact ht
      · exact ht
    rcases takeWord_cases _ _ _ _ hu with ⟨i, hd, hi⟩ | ⟨i, n, ts, hd, _, _, hp, rfl⟩ | ⟨why, _, _, rfl⟩
    · rcases exec_cases i _ _ hi with ⟨b, rfl⟩ | ⟨c, _, rfl⟩ | ⟨ts, hp, n, hn⟩
      · exact byte b _ u hs' hi
      · exact fault _ c _ hs'
      · have ht := idle i hd (planOf_engine i _ _ hp)
        rw [hn ht]
        exact acts_keep P act n _ (start i _ ts hs' ht hp)
    · exact acts_keep P act n _ (start i _ ts hs' (idle i hd (planOf_engine i _ _ hp)) hp)
    · exact fault _ _ w hs'

end Sys2Proof.Machine.Laws
end

