-- ==== Sys2Proof/Tests/Slice0.lean ====
section
/-! SUPPORT. Small tests of the model against the vectors of 95_test_vectors.md, and for each statement with hypotheses a
witness that meets them. -/

namespace Sys2Proof.Machine.Tests

open Sys2Proof Sys2Proof.Machine

-- One theorem after another: in parallel each kernel evaluation would hold a thread with a large stack.
set_option Elab.async false

/-! Helpers. -/

/-- The state after an outcome, if there is one. -/
def next? : Host.Outcome State Fault Refusal → Option State
  | .next t => some t
  | .fault _ => none
  | .refused _ => none

theorem exists_next (o : Host.Outcome State Fault Refusal) (f : State → Bool) (h : (next? o).any f = true) :
    ∃ t, o = .next t ∧ f t = true := by
  cases o with
  | next t => exact ⟨t, rfl, h⟩
  | fault r => simp [next?] at h
  | refused r => simp [next?] at h

/-- A ready block, as INIT leaves it. -/
def ready : State :=
  { State.reset with
    lines := runLines State.reset.lines initSeq
    lineMode := .outputHighDrive
    drvReady := true
    trace := initSeq }

/-- A ready block with every cell of ROWBUF written. -/
def full : State := { ready with rowbuf := (Vector.replicate 24 0x21#8).map some }

/-- A scanning block. -/
def scanning : State := { ready with armed := true, deadline := some Time.zero }

/-- A ready block in the middle of a DISPLAY_FULL: row 8 is loaded and the last two events of its send are left. -/
def halfway : State := { full with todo := [.emit [.set .lat .hi, .set (.row 7) .hi]] }

/-- A block whose producer waits for the last byte of a frame. -/
def lastByte : State := { State.reset with cursor := 191 }

/-- A block stopped by a fault. -/
def stopped : State := { State.reset with fault := some (.reinit, 0x01000000#32) }

/-! WellFormed: an index that does not fit the A field is refused (30_encoding.md R80). -/

theorem test_wf_writeRowbuf : (Instr.writeRowbuf 256 0#8).wellFormed = false ∧ (Instr.writeRowbuf 255 0#8).wellFormed = true := by
  decide
theorem test_wf_loadRow : (Instr.loadRow 256).wellFormed = false ∧ (Instr.loadRow 255).wellFormed = true := by decide
theorem test_wf_sendRow : (Instr.sendRow 256).wellFormed = false ∧ (Instr.sendRow 255).wellFormed = true := by decide

/-! Decode: words written out from 30_encoding.md R80 and R82, OP | A | Z | B (V1, V4, V7, V9 to V13). -/

theorem test_decode_init : decode .cmd 0b00000001_00000000_00000000_00000000#32 = .legal .init := by decide
theorem test_decode_bankInit : decode .cmd 0b00000010_00000000_00000000_00000000#32 = .legal .bankInit := by decide
theorem test_decode_writeRowbuf :
    decode .cmd 0b00000011_00010111_00000000_00110000#32 = .legal (.writeRowbuf 23 0x30#8) := by decide
theorem test_decode_loadRow : decode .cmd 0b00000100_00000110_00000000_00000000#32 = .legal (.loadRow 6) := by decide
theorem test_decode_sendRow : decode .cmd 0b00000101_11111111_00000000_00000000#32 = .legal (.sendRow 255) := by decide
theorem test_decode_displayFull : decode .cmd 0b00000110_00000000_00000000_00000000#32 = .legal .displayFull := by decide
theorem test_decode_arm : decode .cmd 0b00000111_00000000_00000000_00000000#32 = .legal .arm := by decide
theorem test_decode_tick : decode .timer 0b00001000_00000000_00000000_00000000#32 = .legal .tick := by decide
theorem test_decode_rxByte : decode .byte 0b00010000_00000000_00000000_10000001#32 = .legal (.rxByte 0x81#8) := by decide

/-- V2, V3, V8, V15: a field that must be 0. V6: Z. -/
theorem test_decode_fields :
    decode .cmd 0x01000001#32 = .illegal .mustBeZero ∧ decode .cmd 0x01010000#32 = .illegal .mustBeZero ∧
      decode .cmd 0x04030001#32 = .illegal .mustBeZero ∧ decode .byte 0x10010005#32 = .illegal .mustBeZero ∧
      decode .cmd 0x03180100#32 = .illegal .reservedField := by decide

/-- V12, V14, V19: the path. V16, V17, V18: the operation code. -/
theorem test_decode_paths :
    decode .cmd 0x08000000#32 = .illegal .wrongPath ∧ decode .cmd 0x10000005#32 = .illegal .wrongPath ∧
      decode .byte 0x02000000#32 = .illegal .wrongPath ∧ decode .cmd 0x00000000#32 = .illegal .reservedOpcode ∧
      decode .cmd 0x09000000#32 = .illegal .reservedOpcode ∧ decode .cmd 0xFF000000#32 = .illegal .reservedOpcode := by decide

/-- The assembler's lines of 95_test_vectors.md section 3 and their words (30_encoding.md R87). -/
theorem test_assemble :
    (assembleLine "INIT                  ; 0x01000000".toList).map encode = some 0x01000000#32 ∧
      (assembleLine "WRITE_ROWBUF 23, 0x30".toList).map encode = some 0x03170030#32 ∧
      (assembleLine "SEND_ROW 3".toList).map encode = some 0x05030000#32 ∧
      assembleLine "WRITE_ROWBUF 256, 0".toList = none := by decide

/-- P2: the first pixel of the diagnostic row. V51: SHOW_ROW 2. -/
theorem test_pseudo :
    (expand (.writePixel 0 0x10#8 0x01#8 0x80#8)).map (List.map encode) =
        some [0x03000010#32, 0x03010001#32, 0x03020080#32] ∧
      (expand (.showRow 1)).map (List.map encode) = some [0x04020000#32, 0x05020000#32] := by decide

/-! Layout and patterns. -/

/-- W3: pixel (1, 8) is at 21, 22, 23; pixel (2, 1) at 24; pixel (8, 8) ends at 191. -/
theorem test_layout : frameOffset 0 7 .r = 21 ∧ frameOffset 1 0 .r = 24 ∧ frameOffset 7 7 .b = 191 := by decide

/-- W2: the gradient of base 255. -/
theorem test_gradient :
    gradientLevel (fun _ => 255#8) 1 1 .r = 85 ∧ gradientLevel (fun _ => 255#8) 3 8 .g = 14 ∧
      gradientLevel (fun _ => 255#8) 8 8 .b = 3 := by decide

/-- A memory out of order, or with a repeated address, is not in canonical form. -/
theorem test_memory_form : memWf [(5, 1#8), (3, 2#8)] = false ∧ memWf [(5, 1#8), (5, 2#8)] = false := by decide

/-! One step of each operation. -/

/-- V22. -/
theorem test_init : (next? (exec .init State.reset)).any (fun t =>
    lineBits t.lines == 0x1E && t.trace.length == 439 && t.drvReady && t.lineMode == .outputHighDrive) = true := by
  decide +kernel
/-- V61. -/
theorem test_init_twice : (next? (exec .init ready)).map State.fault = some (some (.reinit, 0x01000000#32)) := by
  decide +kernel

/-- V24: a lit row stays lit. -/
theorem test_bankInit : (next? (exec .bankInit { ready with lines := ready.lines.set 6 (some .hi) })).any (fun t =>
    lineBits t.lines == 0x5E && t.trace.length == 439 + 436) = true := by decide +kernel
theorem test_bankInit_notReady :
    (next? (exec .bankInit State.reset)).map State.fault = some (some (.notReady, 0x02000000#32)) := by decide +kernel

/-- V25. -/
theorem test_writeRowbuf : (next? (exec (.writeRowbuf 23 0x30#8) ready)).any (fun t =>
    t.rowbuf[23] == some 0x30#8 && t.rowbuf[22] == none && t.fault == none) = true := by decide +kernel
/-- V65. -/
theorem test_writeRowbuf_range :
    (next? (exec (.writeRowbuf 24 0x55#8) ready)).map State.fault = some (some (.operandRange, 0x03180055#32)) := by
  decide +kernel

/-- V50, on two listed bytes: row 2 begins at offset 24 and ends at offset 47. -/
theorem test_loadRow : (next? (exec (.loadRow 2) { ready with mem := [(24, 7#8), (47, 9#8)] })).any (fun t =>
    t.rowbuf[0] == some 7#8 && t.rowbuf[23] == some 9#8) = true := by decide +kernel
/-- V67. -/
theorem test_loadRow_range : (next? (exec (.loadRow 9) ready)).map State.fault = some (some (.frameAddr, 0x04090000#32)) := by
  decide +kernel

/-- V27 and V29: SEND_ROW 6 blanks row 5 only, so row 3 stays lit. -/
theorem test_sendRow : (next? (exec (.sendRow 6) { full with lines := ready.lines.set 7 (some .hi) })).any (fun t =>
    (litRows t.lines).map rowNumber == [3, 6] && t.trace.length == 439 + 580) = true := by decide +kernel
/-- V68. -/
theorem test_sendRow_unwritten : (next? (exec (.sendRow 1) { full with rowbuf := full.rowbuf.set 23 none })).map State.fault =
    some (some (.rowbufUnwritten, 0x05010000#32)) := by decide +kernel

/-- V32. -/
theorem test_displayFull : (next? (exec .displayFull { ready with mem := [(168, 5#8)] })).any (fun t =>
    t.trace.length == 439 + 4640 && t.rowbuf[0] == some 5#8 && t.nextRow == 0) = true := by decide +kernel

/-- V52. -/
theorem test_arm : (next? (exec .arm ready)).any (fun t =>
    t.armed && t.deadline.isSome && t.nextRow == 0 && t.trace.length == 439) = true := by decide +kernel
/-- V69. -/
theorem test_arm_twice : (next? (exec .arm scanning)).map State.fault = some (some (.rearm, 0x07000000#32)) := by
  decide +kernel

/-- V54: the handoff. -/
theorem test_tick_handoff : (next? (exec .tick { scanning with pend := some 2 })).any (fun t =>
    t.cur == 2 && t.pend == none && t.freeSlots == [0] && rowNumber t.nextRow == 2) = true := by decide +kernel
/-- V55: no handoff at row 4. -/
theorem test_tick_midframe : (next? (exec .tick { scanning with pend := some 2, nextRow := 3 })).any (fun t =>
    t.cur == 0 && t.pend == some 2 && rowNumber t.nextRow == 5 && t.deadline.isSome) = true := by
  decide +kernel
/-- The row interval of the default rate is 1/480 s (00_scope.md R7). -/
theorem test_rowInterval : (rowInterval Config.defaultFps).secs = 1 / 480 := by decide +kernel

/-- V44: a completion; V45's roles after it. -/
theorem test_rxByte_completes : (next? (exec (.rxByte 0x33#8) lastByte)).any (fun t =>
    t.pend == some 1 && t.rcv == 2 && t.cursor == 0 && t.freeSlots == []) = true := by decide +kernel
/-- V40 and V42: an ordinary byte, and the resynchronization marker. -/
theorem test_rxByte : (next? (exec (.rxByte 0x2A#8) { State.reset with cursor := 5 })).map State.cursor = some 6 ∧
    (next? (exec (.rxByte 0xFF#8) { State.reset with cursor := 100, mem := [(192, 1#8)] })).any (fun t =>
      t.cursor == 0 && t.mem == [(192, 1#8)]) = true := by decide +kernel

/-! One step of the machine. -/

/-- V63: an illegal word wins over NOT_READY. -/
theorem test_step_illegal : (next? (step (State.reset.withFetchWord 32 0x03180100))).map State.fault =
    some (some (.illegalCmd, 0x03180100#32)) := by decide +kernel
/-- A placed TICK word runs on the timer path. -/
theorem test_step_tick : (next? (step (ready.withFetchWord 32 0x08000000))).map State.nextRow = some 1 := by decide +kernel
/-- The command issuer's step: the word it writes waits behind the one there. -/
theorem test_step_issuer : (next? (step { ready with
    input := some (.command 0x06000000#32), cmdPort := [0x07000000#32] })).map State.cmdPort =
      some [0x07000000#32, 0x06000000#32] := by decide +kernel
/-- DISPLAY_FULL suspended after the load and the first three events of row 1; then a byte runs; then an illegal byte-port word
leaves TRACE where it is. -/
theorem test_step_suspended : (next? (step { ready with cmdPort := [0x06000000#32], breakAfter := some 4 })).any (fun t =>
    t.trace.length == 439 + 3 && t.todo.length == 8) = true := by decide +kernel
theorem test_step_byte_inside : (next? (step { halfway with bytePort := [0x10000005#32] })).any (fun t =>
    t.cursor == 1 && t.todo == halfway.todo && t.trace == halfway.trace) = true := by decide +kernel
theorem test_step_illegal_inside : (next? (step { halfway with bytePort := [0x02000000#32] })).any (fun t =>
    t.fault == some (.illegalCmd, 0x02000000#32) && t.todo == halfway.todo && t.trace == halfway.trace) = true := by
  decide +kernel
/-- V73: with FAULT set nothing has a step. -/
theorem test_step_stopped : next? (step stopped) = none := by decide +kernel

/-! Witnesses: for each statement with hypotheses, a state and operands that meet them; for each clause a boundary value. -/

theorem witness_DecodeInvertsEncode : (Instr.loadRow 255).wellFormed = true := rfl

theorem witness_LegalWordIsTheOperationsWord : decode .cmd 0x03FF00FF#32 = .legal (.writeRowbuf 255 0xFF#8) := by decide

theorem witness_ReservedEncodingsRaiseIllegal :
    reservedEncoding 0x09000000#32 ∧ reservedEncoding 0x01000100#32 ∧ reservedEncoding 0x10010000#32 ∧
      reservedEncoding 0x08000001#32 ∧ State.reset.running := by decide

theorem witness_WordsAreBoundToTheirPath :
    State.reset.running ∧ (∀ b, (0x01000000#32 : Word) ≠ encode (.rxByte b)) ∧ (0x01000000#32 : Word) ≠ encode .tick := by
  decide +kernel

theorem witness_StepRunsTheDecodedOperation : (State.reset.running ∧ State.reset.input = none ∧ State.reset.breakAfter = none) ∧
    (∃ s', ({ State.reset with cmdPort := [0x01000000#32] } : State).fetch = some (.cmd, 0x01000000#32, s') ∧
      decode .cmd 0x01000000#32 = .legal .init) ∧
    ∃ s', ({ halfway with bytePort := [0x10000005#32], breakAfter := some 0 } : State).fetch = some (.byte, 0x10000005#32, s') ∧
      decode .byte 0x10000005#32 = .legal (.rxByte 5#8) :=
  ⟨by decide, ⟨State.reset, by decide +kernel, by decide⟩, ⟨{ halfway with breakAfter := some 0 }, rfl, by decide⟩⟩

theorem witness_OperationMayBeSuspended :
    (∃ s', ({ ready with cmdPort := [0x06000000#32], breakAfter := some 4 } : State).fetch = some (.cmd, 0x06000000#32, s') ∧
      decode .cmd 0x06000000#32 = .legal .displayFull ∧ ∃ ts, planOf .displayFull s' = some (.runs ts)) ∧
    (∃ s', ({ State.reset with cmdPort := [0x06000000#32], breakAfter := some 0 } : State).fetch =
        some (.cmd, 0x06000000#32, s') ∧ planOf .displayFull s' = some (.raises .notReady)) ∧
    ready.running ∧ ready.input = none :=
  ⟨⟨_, rfl, by decide, _, rfl⟩, ⟨_, rfl, rfl⟩, rfl, rfl⟩

theorem witness_SuspendedOperationGoesOn : (halfway.running ∧ halfway.input = none ∧ halfway.bytePort = [] ∧ halfway.todo ≠ []) ∧
    halfway.breakAfter = none ∧ ({ halfway with breakAfter := some 0 } : State).breakAfter = some 0 := by decide +kernel

theorem witness_SuspensionChangesNoOutcome : ready.running ∧ ready.todo = [] ∧ ∃ ts, planOf .tick ready = some (.runs ts) :=
  ⟨rfl, rfl, _, rfl⟩

theorem witness_StepTakesAnIllegalWord : State.reset.input = none ∧
    ∃ s', ({ State.reset with bytePort := [0x02000000#32] } : State).fetch = some (.byte, 0x02000000#32, s') ∧
      decode .byte 0x02000000#32 = .illegal .wrongPath := ⟨rfl, State.reset, by decide +kernel, by decide⟩

theorem witness_IllegalByteStopsAnOperation : halfway.running ∧ halfway.input = none ∧ halfway.todo ≠ [] ∧
    ({ halfway with bytePort := [0x02000000#32] } : State).bytePort = 0x02000000#32 :: [] ∧
    decode .byte 0x02000000#32 = .illegal .wrongPath := ⟨rfl, rfl, by decide, rfl, by decide⟩

theorem witness_IdleStepKeepsTheBlock : State.reset.running ∧ State.reset.input = none ∧ State.reset.fetch = none ∧
    State.reset.todo = [] := by decide +kernel

theorem witness_HostInputsReachThePorts : State.reset.running ∧
    ({ State.reset with input := some (.command 7#32) } : State).input = some (.command 7#32) ∧
    ({ State.reset with input := some (.serial 7#32) } : State).input = some (.serial 7#32) := ⟨rfl, rfl, rfl⟩

theorem witness_WaitingByteIsTakenFirst :
    ({ scanning with bytePort := [0x100000FF#32] } : State).bytePort = 0x100000FF#32 :: [] ∧
    halfway.bytePort = [] ∧ halfway.todo ≠ [] := ⟨rfl, rfl, by decide⟩

/-- A command waits and no tick is due, on either turn; a tick is due and no command waits. -/
theorem witness_TickIsTakenOnlyWhenDue :
    (∃ s', scanning.fetch = some (.timer, 0x08000000#32, s')) ∧
    (scanning.armed = true ∧ scanning.deadline = some Time.zero ∧ Time.zero.secs ≤ scanning.now.secs ∧
      scanning.bytePort = [] ∧ scanning.todo = [] ∧ scanning.cmdPort = []) ∧
    (ready.bytePort = [] ∧ ready.todo = [] ∧ ready.turn = .command ∧
      ({ ready with turn := .tick, cmdPort := [0x06000000#32] } : State).tickDue = false) :=
  ⟨⟨scanning, by decide +kernel⟩, by decide +kernel, by decide +kernel⟩

theorem witness_PlacedWordRunsNext : State.reset.running ∧ decodeTableWord 32 0x08000000 = some .tick ∧
    decodeTableWord 32 0x100000FF = some (.rxByte 0xFF#8) ∧ decodeTableWord 32 0x05FF0000 = some (.sendRow 255) := by
  decide +kernel

theorem witness_TimeNeverGoesBack : ∃ t, step State.reset = .next t := ⟨_, rfl⟩

/-- A state of the invariant whose producer has taken bytes. -/
theorem witness_EveryStepKeepsTheInvariant : ∃ s t : State, s.Inv ∧ step s = .next t := by
  refine ⟨lastByte, _, ?_, rfl⟩
  exact
    { roles := ⟨by decide, by decide⟩
      memory := by decide
      linesFollow := rfl
      rest :=
        { armedReady := by decide
          armedDeadline := rfl
          beforeInit := fun _ => ⟨rfl, rfl, rfl⟩
          afterInit := fun h => absurd h (by decide)
          restLevels := fun h => absurd h (by decide) } }

theorem witness_RolesStayDistinct : ∃ t, lastByte.RolesDistinct ∧ step lastByte = .next t :=
  ⟨_, ⟨by decide, by decide⟩, rfl⟩

theorem witness_ElementsHaveOnlyTheirWriters :
    (∃ t, exec .init State.reset = .next t ∧
      decide (t.lines ≠ State.reset.lines ∧ t.lineMode ≠ State.reset.lineMode) = true) ∧
    (∃ t, exec .arm ready = .next t ∧ decide (t.armed ≠ ready.armed ∧ t.deadline ≠ ready.deadline) = true) ∧
    (∃ t, exec .tick { scanning with pend := some 2 } = .next t ∧
      decide (t.nextRow ≠ 0 ∧ t.cur ≠ 0 ∧ t.pend ≠ some 2 ∧ t.rowbuf ≠ scanning.rowbuf) = true) ∧
    (∃ t, exec (.rxByte 0x33#8) lastByte = .next t ∧ decide (t.rcv ≠ lastByte.rcv ∧ t.pend ≠ lastByte.pend) = true) :=
  ⟨exists_next _ _ (by decide +kernel), exists_next _ _ (by decide +kernel), exists_next _ _ (by decide +kernel),
    exists_next _ _ (by decide +kernel)⟩

theorem witness_FaultStopsEveryAgent : stopped.fault = some (.reinit, 0x01000000#32) ∧
    ∃ t, exec .arm State.reset = .next t ∧ decide (t.fault ≠ none) = true :=
  ⟨rfl, exists_next _ _ (by decide +kernel)⟩

theorem witness_FaultingOperationWritesOnlyFault : ∃ t, exec (.sendRow 1) ready = .next t ∧ decide (t.fault ≠ none) = true :=
  exists_next _ _ (by decide +kernel)

theorem witness_FirstApplicableFaultIsRaised : ready.running ∧ decode .cmd 0x01010000#32 = .illegal .mustBeZero := by
  decide +kernel

theorem witness_CommandsNeedTheirReadiness :
    (State.reset.running ∧ State.reset.drvReady = false ∧ Instr.tick ≠ .init ∧ receivedByte .tick = none) ∧
      ready.running ∧ ready.drvReady = true := by decide +kernel

theorem witness_InitConstructsTheDriver :
    (State.reset.running ∧ State.reset.drvReady = false) ∧ ready.running ∧ ready.drvReady = true := by decide +kernel

theorem witness_BankInitArmsTheChip :
    (State.reset.running ∧ State.reset.drvReady = false) ∧ ready.running ∧ ready.drvReady = true := by decide +kernel

theorem witness_WriteRowbufWritesOneCell : (255 < 256 ∧ State.reset.drvReady = false) ∧ ready.running ∧
    ready.drvReady = true ∧ 24 ≤ 24 ∧ 23 < 24 := by decide +kernel

theorem witness_SendRowTransmitsTheRowBuffer : State.reset.running ∧ State.reset.drvReady = false ∧ ready.running ∧
    ready.drvReady = true ∧ (∃ i : CellIndex, ready.rowbuf[i.val] = none) ∧
    (full.running ∧ full.drvReady = true ∧ ∀ i : CellIndex, full.rowbuf[i.val] = some (Vector.replicate 24 0x21#8)[i.val]) :=
  ⟨rfl, rfl, rfl, rfl, ⟨23, rfl⟩, rfl, rfl, by decide +kernel⟩

theorem witness_RowSendLeavesTheseLevels : full.running ∧ full.drvReady = true ∧
    full.rowbuf = (Vector.replicate 24 0x21#8).map some := ⟨rfl, rfl, rfl⟩

theorem witness_RowLinesOfEveryIndex : (0 < 1 ∨ 8 < 0) ∧ (9 < 1 ∨ 8 < 9) ∧ (2 ≤ 2 ∧ 2 ≤ 8) ∧ (2 ≤ 8 ∧ 8 ≤ 8) := by decide

theorem witness_ScanOrderLightsOneRow :
    (∀ x ∈ litRows (ready.lines.set 12 (some .hi)), Line.row x = prevLine (rowNumber 0)) ∧ (361 ≤ 579 ∧ 579 ≤ 579) ∧
    full.running ∧ full.drvReady = true ∧ full.rowbuf = (Vector.replicate 24 0x21#8).map some ∧
    (∀ x ∈ litRows full.lines, Line.row x = prevLine (7 % 8 + 1)) :=
  ⟨by decide +kernel, by decide, rfl, rfl, rfl, by decide +kernel⟩

/-- The ready block meets the invariant. -/
theorem full_inv : full.Inv where
  roles := ⟨by decide, by decide⟩
  memory := by decide
  linesFollow := rfl
  rest :=
    { armedReady := by decide
      armedDeadline := rfl
      beforeInit := fun h => absurd h (by decide)
      afterInit := fun _ => ⟨rfl, List.prefix_refl _⟩
      restLevels := fun _ => by
        have h := Laws.lineLevel_initSeq State.reset.lines
        exact ⟨h .clk, h .lat, h .en, h .rst,
          fun l => by show (lineLevel (runLines _ initSeq) l).isSome = true; rw [h l]; rfl⟩ }

theorem witness_BankInitComesBeforeRowData :
    (full.Inv ∧ full.todo = [] ∧ sendsRows (.sendRow 9) ∧ ∃ t, exec (.sendRow 9) full = .next t ∧ decide (t.fault = none) = true) ∧
      (1 ≤ 1 ∧ 433 ≤ 433) :=
  ⟨⟨full_inv, rfl, .inr (.inr ⟨9, rfl⟩), exists_next _ _ (by decide +kernel)⟩, by decide⟩

theorem witness_ClockPulseFormsGiveOneWaveform : lineLevel ready.lines .clk = some .lo := by decide +kernel

theorem witness_DisplayFullSendsTheCurrentFrame :
    (State.reset.running ∧ State.reset.drvReady = false) ∧ ready.running ∧ ready.drvReady = true := by decide +kernel

theorem witness_DisplayFullEndsWithRowEightLit : full.running ∧ full.drvReady = true := ⟨rfl, rfl⟩

/-- For each operation code a word with it that breaks the format (the clause of `EncodedAs`). -/
theorem witness_EncodedAs :
    (opField 0x01000001#32 = 0x01#8 ∧ reservedEncoding 0x01000001#32) ∧
    (opField 0x02010000#32 = 0x02#8 ∧ reservedEncoding 0x02010000#32) ∧
    (opField 0x03180100#32 = 0x03#8 ∧ reservedEncoding 0x03180100#32) ∧
    (opField 0x04030001#32 = 0x04#8 ∧ reservedEncoding 0x04030001#32) ∧
    (opField 0x05FF0001#32 = 0x05#8 ∧ reservedEncoding 0x05FF0001#32) ∧
    (opField 0x06000100#32 = 0x06#8 ∧ reservedEncoding 0x06000100#32) ∧
    (opField 0x07FF0000#32 = 0x07#8 ∧ reservedEncoding 0x07FF0000#32) ∧
    (opField 0x08000001#32 = 0x08#8 ∧ reservedEncoding 0x08000001#32) ∧
    (opField 0x10010005#32 = 0x10#8 ∧ reservedEncoding 0x10010005#32) := by
  refine ⟨?_, ?_, ?_, ?_, ?_, ?_, ?_, ?_, ?_⟩ <;> decide

theorem witness_LoadRowCopiesTheRow : (255 < 256 ∧ State.reset.drvReady = false) ∧ ready.running ∧
    ready.drvReady = true ∧ (0 < 1 ∨ 8 < 0) ∧ (9 < 1 ∨ 8 < 9) ∧ (1 ≤ 8 ∧ 8 ≤ 8) ∧
    ((191 : Offset).val = (8 - 1) * 24 + (23 : CellIndex).val) := by decide +kernel

theorem witness_ArmStartsTheScan : (State.reset.running ∧ State.reset.drvReady = false) ∧
    (scanning.running ∧ scanning.drvReady = true ∧ scanning.armed = true) ∧
    (ready.running ∧ ready.drvReady = true ∧ ready.armed = false) := by decide +kernel

theorem witness_TickSendsOneRowOfTheScan : scanning.running ∧ scanning.drvReady = true ∧ scanning.deadline = some Time.zero ∧
    (47 : Offset).val = (1 : Row).val * 24 + (23 : CellIndex).val := by decide +kernel

theorem witness_CadenceAfterTicks :
    (∃ t, runAll [.tick, .rxByte 5#8, .tick] scanning = .next t ∧ decide (t.running) = true) ∧
      scanning.nextRow = 0 ∧ scanning.armed = true ∧ scanning.deadline = some Time.zero :=
  ⟨exists_next _ _ (by decide +kernel), rfl, rfl, rfl⟩

theorem witness_LatenessMovesNoDeadline : scanning.running ∧ scanning.drvReady = true := ⟨rfl, rfl⟩

theorem witness_CurrentFrameChangesOnlyAtABoundary :
    (∃ t, exec .tick { scanning with nextRow := 7 } = .next t ∧ decide (t.fault = none) = true) ∧
      ({ scanning with nextRow := 7 } : State).RolesDistinct ∧
      ¬ (Instr.tick = .tick ∧ ({ scanning with nextRow := 7 } : State).nextRow = 0) :=
  ⟨exists_next _ _ (by decide +kernel), ⟨by decide, by decide⟩, by decide⟩

theorem witness_EightTicksSendOneFrame :
    scanning.running ∧ scanning.drvReady = true ∧ scanning.RolesDistinct ∧ scanning.nextRow = 0 ∧
      (∀ i ∈ List.replicate 7 Instr.tick ++ [Instr.rxByte 5#8], i = .tick ∨ ∃ b, i = .rxByte b) ∧
      (List.replicate 7 Instr.tick ++ [Instr.rxByte 5#8]).count Instr.tick = 7 := by
  refine ⟨rfl, rfl, ⟨by decide, by decide⟩, rfl, ?_, by decide⟩
  intro i hi
  simp only [List.mem_append, List.mem_replicate, List.mem_singleton] at hi
  rcases hi with ⟨_, h⟩ | h
  · exact .inl h
  · exact .inr ⟨_, h⟩

theorem witness_RxByteTakesOneByte :
    State.reset.running ∧ (0x2A#8 : Byte) ≠ 0xFF#8 ∧ State.reset.cursor.val < 191 ∧
      ({ State.reset with cursor := 190 } : State).cursor.val < 191 ∧ lastByte.running ∧ lastByte.cursor.val = 191 := by
  decide +kernel

theorem witness_NewestFrameWins : lastByte.RolesDistinct ∧ (1#8 : Byte) ≠ 0xFF#8 ∧ (2#8 : Byte) ≠ 0xFF#8 ∧
    lastByte.cursor.val = 191 ∧ ∃ t, exec (.rxByte 1#8) lastByte = .next t ∧
      ∃ u, exec (.rxByte 2#8) { t with mem := [], cursor := 191 } = .next u :=
  ⟨⟨by decide, by decide⟩, by decide, by decide, rfl, _, rfl, _, rfl⟩

theorem witness_CommittedFrameIsTheReceivedBytes :
    (∃ t, runAll (List.replicate 191 (Instr.rxByte 5#8) ++ [Instr.rxByte 6#8]) State.reset = .next t ∧ decide (t.running) = true) ∧
      State.reset.cursor = 0 ∧
      (∀ b ∈ (List.replicate 191 (Instr.rxByte 5#8) ++ [Instr.rxByte 6#8]).filterMap receivedByte, b ≠ 0xFF#8) ∧
      ((List.replicate 191 (Instr.rxByte 5#8) ++ [Instr.rxByte 6#8]).filterMap receivedByte).length = 192 :=
  ⟨exists_next _ _ (by decide +kernel), rfl, by decide +kernel, by decide +kernel⟩

theorem witness_ProducerCommutesWithTheEngine : (ready.running ∧ ready.RolesDistinct ∧ receivedByte (.loadRow 8) = none ∧
    faultOf (.loadRow 8) ready = none ∧ ¬ (Instr.loadRow 8 = .tick ∧ ready.nextRow = 0)) ∧
    halfway.running ∧ halfway.RolesDistinct ∧ halfway.todo.head? ≠ some .handoff :=
  ⟨⟨rfl, ⟨by decide, by decide⟩, rfl, rfl, by decide⟩, rfl, ⟨by decide, by decide⟩, by decide⟩

theorem witness_InterleavingIsSomeAtomicOrder : ready.running ∧ ready.RolesDistinct ∧ ready.todo = [] ∧
    (∃ ts, planOf .tick ready = some (.runs ts)) ∧ ∃ c : List (Nat × Byte), c = [(0, 5#8), (300, 0xFF#8)] :=
  ⟨rfl, ⟨by decide, by decide⟩, rfl, ⟨_, rfl⟩, _, rfl⟩

/-- The memory differs from the ready block's in the receive slot. -/
theorem witness_OnlyTheCurrentFrameReachesTheLines :
    (∀ o, memRead (memWrite ready.mem (flatAddr 1 191) 7#8) (flatAddr ready.cur o) = ready.frameRead ready.cur o) ∧
      receivedByte (.loadRow 8) = none ∧ ¬ (Instr.loadRow 8 = .tick ∧ ready.nextRow = 0) ∧
      ∃ t, exec (.loadRow 8) ready = .next t := by
  refine ⟨fun o => ?_, rfl, by decide, _, rfl⟩
  rw [Laws.memRead_memWrite, if_neg]
  · rfl
  · rw [Laws.flatAddr_injective]
    exact fun h => absurd h.1 (by decide)

theorem witness_GradientPattern : 1 * 1 + 1 ≤ 8 * 8 + 8 ∧ 3 ≤ (3#8 : Byte).toNat := by decide

theorem witness_PseudoInstructionsExpand : (ready.running ∧ ready.drvReady = true) ∧
    0xFF#8 ∈ (Vector.replicate 192 0xFF#8).toList ∧ 0xFF#8 ∉ (Vector.replicate 192 0xFE#8).toList := by decide +kernel

end Sys2Proof.Machine.Tests
end

section
/-! The role invariant (10_state.md R31): each way a step moves the roles keeps them distinct, and how many slots they leave
free. -/

namespace Sys2Proof.Machine.RolesProofs

open Machine.Laws

/-! A state whose roles are those of another one. -/

/-- `State.RolesDistinct` speaks of the three roles only. -/
theorem rolesDistinct_congr {s t : State} (hs : s.RolesDistinct) (cur : t.cur = s.cur) (rcv : t.rcv = s.rcv)
    (pend : t.pend = s.pend) : t.RolesDistinct := by
  obtain ⟨hcur, hpend⟩ := hs
  constructor
  · rwa [cur, rcv]
  · rwa [cur, rcv, pend]

/-! The scheduler side of the exchange (42_row_scan.md R165). -/

theorem rolesDistinct_handoffSchedulerSide {s : State} (hs : s.RolesDistinct) :
    s.handoffSchedulerSide.RolesDistinct := by
  constructor
  · rw [handoffSchedulerSide_cur, handoffSchedulerSide_rcv]
    cases hp : s.pend with
    | none => exact hs.curRcv
    | some p => exact (hs.pendOther p hp).2
  · simp

/-- Of the tasks only the handoff moves a role. -/
theorem rolesDistinct_perform {s : State} (hs : s.RolesDistinct) (k : Task) : (s.perform k).RolesDistinct := by
  cases k with
  | handoff => exact rolesDistinct_handoffSchedulerSide hs
  | showRow r => exact rolesDistinct_congr hs (showRow_cur s r) (showRow_rcv s r) (showRow_pend s r)
  | emit es => exact rolesDistinct_congr hs rfl rfl rfl
  | configured => exact rolesDistinct_congr hs rfl rfl rfl
  | ready => exact rolesDistinct_congr hs rfl rfl rfl
  | store i v => exact rolesDistinct_congr hs rfl rfl rfl
  | load r => exact rolesDistinct_congr hs rfl rfl rfl
  | arm => exact rolesDistinct_congr hs rfl rfl rfl
  | advance => exact rolesDistinct_congr hs rfl rfl rfl

/-- An action of the engine performs one task: an event is a task of its own, and the row of a `showRow` is loaded before its
events are sent. -/
theorem act_eq_perform (s : State) : ∃ k ts, s.act = { s.perform k with todo := ts } := by
  obtain ⟨ts, u, rfl⟩ : ∃ ts u, s = { u with todo := ts } := ⟨s.todo, s, rfl⟩
  rcases ts with _ | ⟨k, rest⟩
  · exact ⟨.emit [], [], by simp [State.act, State.perform]⟩
  cases k with
  | emit es =>
    cases es with
    | nil => exact ⟨.emit [], rest, by simp [State.act, State.perform]⟩
    | cons e es => exact ⟨.emit [e], .emit es :: rest, rfl⟩
  | showRow r => exact ⟨.load r, _, rfl⟩
  | configured => exact ⟨.configured, rest, rfl⟩
  | ready => exact ⟨.ready, rest, rfl⟩
  | store i v => exact ⟨.store i v, rest, rfl⟩
  | load r => exact ⟨.load r, rest, rfl⟩
  | arm => exact ⟨.arm, rest, rfl⟩
  | handoff => exact ⟨.handoff, rest, rfl⟩
  | advance => exact ⟨.advance, rest, rfl⟩

theorem rolesDistinct_act {s : State} (hs : s.RolesDistinct) : s.act.RolesDistinct := by
  obtain ⟨k, ts, eq⟩ := act_eq_perform s
  rw [eq]
  exact rolesDistinct_congr (rolesDistinct_perform hs k) rfl rfl rfl

/-! The decoder side of the exchange (41_host_port.md R143). -/

/-- Alloc answers free slots only (20_memory.md R58). -/
theorem isFree_of_alloc {s : State} {x : Slot} (h : s.alloc = some x) : s.isFree x = true :=
  (List.mem_filter.1 (List.mem_of_head? h)).2

/-- Once the completed slot is pending, the slots in use are it and the current one. -/
theorem installPending_isFree_iff (s : State) (x : Slot) :
    s.installPending.isFree x = true ↔ x ≠ s.cur ∧ x ≠ s.rcv := by
  simp [isFree_iff, eq_comm (a := s.rcv)]

/-- Two slots in use leave one of the three for Alloc, so POOL_EXHAUSTED is not raised. -/
theorem installPending_alloc_ne_none (s : State) : s.installPending.alloc ≠ none := by
  have third : ∀ c r : Slot, ∃ x, x ≠ c ∧ x ≠ r := by decide
  obtain ⟨x, hx⟩ := third s.cur s.rcv
  have free : s.installPending.isFree x = true := (installPending_isFree_iff s x).2 hx
  rcases alloc_cases s.installPending with ⟨y, hy, _⟩ | ⟨_, full⟩
  · simp [hy]
  · simp [full x] at free

/-- A completion makes the received slot pending and receives into a slot that was neither it nor the current one. -/
theorem rolesDistinct_completeFrame {s : State} (hs : s.RolesDistinct) (w : Word) :
    (s.completeFrame w).RolesDistinct := by
  rcases completeFrame_cases s w with ⟨x, hx, eq⟩ | ⟨full, _⟩
  · obtain ⟨xCur, xRcv⟩ := (installPending_isFree_iff s x).1 (isFree_of_alloc hx)
    rw [eq]
    constructor
    · simpa using xCur.symm
    · simpa using ⟨hs.curRcv.symm, xRcv.symm⟩
  · exact absurd full (installPending_alloc_ne_none s)

theorem rolesDistinct_execRxByte {b : Byte} {s t : State} (hs : s.RolesDistinct) (h : execRxByte b s = .next t) :
    t.RolesDistinct := by
  rcases ((execRxByte_next b s t).1 h).2 with ⟨_, rfl⟩ | ⟨_, _, rfl⟩ | ⟨_, _, rfl⟩
  · exact rolesDistinct_congr hs rfl rfl rfl
  · exact rolesDistinct_congr hs rfl rfl rfl
  · apply rolesDistinct_completeFrame
    exact rolesDistinct_congr hs rfl rfl rfl

/-! Every step. -/

theorem rolesDistinct_step {s t : State} (hs : s.RolesDistinct) (h : step s = .next t) : t.RolesDistinct :=
  step_keeps State.RolesDistinct
    (pass := fun _ hs => rolesDistinct_congr hs rfl rfl rfl)
    (arrive := fun s x hs => rolesDistinct_congr hs (deliver_cur s x) (deliver_rcv s x) (deliver_pend s x))
    (take := fun _ _ _ hs => rolesDistinct_congr hs rfl rfl rfl)
    (start := fun _ _ _ hs _ _ => rolesDistinct_congr hs rfl rfl rfl)
    (act := fun _ hs => rolesDistinct_act hs)
    (fault := fun _ _ _ hs => rolesDistinct_congr hs rfl rfl rfl)
    (byte := fun _ _ _ hs h => rolesDistinct_execRxByte hs h)
    s t hs h

/-! Counting the slots. -/

theorem allocated_eq (s : State) : s.allocated = 2 + (if s.pend = none then 0 else 1) := by
  unfold State.allocated
  cases s.pend <;> rfl

theorem allocated_le_poolCap (s : State) : s.allocated ≤ Config.poolCap := by
  rw [allocated_eq]
  split <;> decide

/-- Distinct roles: each of the three slots holds one role or is free. -/
theorem length_freeSlots_add_allocated {s : State} (hs : s.RolesDistinct) :
    s.freeSlots.length + s.allocated = Config.poolCap := by
  obtain ⟨hcur, hpend⟩ := hs
  unfold State.freeSlots State.isFree State.allocated
  generalize s.cur = c, s.rcv = r, s.pend = q at *
  cases q with
  | none =>
    clear hpend
    revert c r; decide
  | some p =>
    have hp := hpend p rfl
    clear hpend
    revert c r p; decide

/-- Settles O21: `step_keeps` for the role invariant, and the count of the slots by whether a frame is pending. -/
theorem rolesStayDistinct : Obligations.RolesStayDistinct := by
  unfold Obligations.RolesStayDistinct
  exact ⟨fun _ _ hs h => rolesDistinct_step hs h,
    fun s hs => ⟨allocated_le_poolCap s, length_freeSlots_add_allocated hs, allocated_eq s⟩⟩

end Sys2Proof.Machine.RolesProofs
end

section
/-! SUPPORT. The layout of a frame (20_memory.md section 2): the channel, the row and the column of a byte of it. -/

namespace Sys2Proof.Machine.FrameLayoutProofs

@[simp] theorem frameOffset_val (row : Row) (col : Col) (ch : Channel) :
    (frameOffset row col ch).val = (row.val * 8 + col.val) * 3 + (channelIndex ch).val := rfl

/-! The channel of a byte, which its position modulo 3 decides. -/

theorem channelIndex_channelOf (n : Nat) : (channelIndex (channelOf n)).val = n % 3 := by
  unfold channelOf
  have hn : n % 3 < 3 := Nat.mod_lt n (by decide)
  interval_cases n % 3 <;> rfl

/-- Whole pixels before a byte do not change its channel. -/
@[simp] theorem channelOf_mul_three_add (k n : Nat) : channelOf (k * 3 + n) = channelOf n := by
  unfold channelOf
  rw [Nat.mul_add_mod']

@[simp] theorem channelOf_channelIndex (ch : Channel) : channelOf (channelIndex ch).val = ch := by
  cases ch <;> rfl

/-! The row and the column of a byte, by division. -/

/-- The pixel of a byte: its row-major number. -/
theorem frameOffset_div_three (row : Row) (col : Col) (ch : Channel) :
    (frameOffset row col ch).val / 3 = row.val * 8 + col.val := by
  have := (channelIndex ch).isLt
  rw [frameOffset_val]
  omega

theorem frameOffset_row (row : Row) (col : Col) (ch : Channel) : (frameOffset row col ch).val / 3 / 8 = row.val := by
  have hc : col.val < 8 := col.isLt
  rw [frameOffset_div_three]
  omega

theorem frameOffset_col (row : Row) (col : Col) (ch : Channel) : (frameOffset row col ch).val / 3 % 8 = col.val := by
  have hc : col.val < 8 := col.isLt
  rw [frameOffset_div_three]
  omega

theorem channelOf_frameOffset (row : Row) (col : Col) (ch : Channel) : channelOf (frameOffset row col ch).val = ch := by
  rw [frameOffset_val, channelOf_mul_three_add, channelOf_channelIndex]

/-- A row's 24 cells are the bytes of its 8 pixels (20_memory.md R53). -/
theorem rowOffset_laneCell (row : Row) (col : Col) (ch : Channel) :
    rowOffset row (laneCell col ch) = frameOffset row col ch := by
  apply Fin.ext
  simp only [rowOffset, laneCell, frameOffset_val]
  omega

/-! Every byte of a frame is a channel of a pixel. -/

/-- The row of an offset. -/
def offsetRow (o : Offset) : Row := ⟨o.val / 3 / 8, by
  have ho : o.val < 192 := o.isLt
  show o.val / 3 / 8 < 8
  omega⟩

/-- The column of an offset. -/
def offsetCol (o : Offset) : Col := ⟨o.val / 3 % 8, Nat.mod_lt _ (by decide)⟩

theorem frameOffset_offsetRow_offsetCol (o : Offset) :
    frameOffset (offsetRow o) (offsetCol o) (channelOf o.val) = o := by
  apply Fin.ext
  rw [frameOffset_val, channelIndex_channelOf]
  simp only [offsetRow, offsetCol]
  omega

/-- Settles O55: the offset is (pixel number) * 3 + channel, so division by 3 and by 8 takes it apart. -/
theorem frameLayoutAndItsInverse : Obligations.FrameLayoutAndItsInverse := by
  unfold Obligations.FrameLayoutAndItsInverse
  refine ⟨fun row col ch => ⟨?_, ?_, frameOffset_col row col ch, channelOf_frameOffset row col ch,
    rowOffset_laneCell row col ch⟩, fun o => ⟨offsetRow o, offsetCol o, frameOffset_offsetRow_offsetCol o⟩⟩
  · cases ch <;> rfl
  · rw [frameOffset_row]; rfl

end Sys2Proof.Machine.FrameLayoutProofs
end

section
/-! SUPPORT. What a legal decoding says of its word (30_encoding.md R82, R86), and what a word that is not one does. -/

namespace Sys2Proof.Machine.DecodeProofs

open Sys2Proof.Laws Machine.Laws

/-- A word is accepted only with zero fields and on the wanted path, as the operation named. -/
theorem accept_legal {fieldsZero : Bool} {path wanted : Path} {i j : Instr}
    (h : accept fieldsZero path wanted i = .legal j) : fieldsZero = true ∧ path = wanted ∧ i = j := by
  unfold accept at h
  split at h
  · contradiction
  next hzero =>
    split at h
    next hpath => exact ⟨by simpa using hzero, hpath, Decoded.legal.inj h⟩
    · contradiction

/-- The word agrees field by field with the row of the operation in the table of 30_encoding.md R82. -/
structure MatchesRow (i : Instr) (w : Word) : Prop where
  op : opField w = opcode i
  a : aField w = aOperand i
  z : zField w = 0#8
  b : bField w = bOperand i

/-- A word that decodes has the fields of the operation's row, and came by the path of its issuer. -/
theorem decode_legal {p : Path} {w : Word} {i : Instr} (h : decode p w = .legal i) :
    MatchesRow i w ∧ issuePath i = p := by
  simp only [decode] at h
  split at h
  · contradiction
  rename_i hz
  have hz : zField w = 0#8 := not_not.1 hz
  split at h
  case h_10 => contradiction
  all_goals
    rename_i hop
    obtain ⟨hzero, rfl, rfl⟩ := accept_legal h
    simp only [Bool.and_eq_true, beq_iff_eq] at hzero
    refine ⟨⟨BitVec.eq_of_toNat_eq hop, ?_, hz, ?_⟩, rfl⟩ <;> simp [aOperand, bOperand, hzero]

theorem encode_eq_of_matchesRow {i : Instr} {w : Word} (h : MatchesRow i w) : encode i = w := by
  unfold encode
  rw [← h.op, ← h.a, ← h.b]
  exact packWord_fields w h.z

theorem not_reservedEncoding_of_matchesRow {i : Instr} {w : Word} (h : MatchesRow i w) : ¬ reservedEncoding w := by
  unfold reservedEncoding
  rw [h.op, h.a, h.z, h.b]
  cases i <;> simp [opcode, aOperand, bOperand]

theorem eq_tick_of_issuePath {i : Instr} (h : issuePath i = .timer) : i = .tick := by
  cases i <;> simp [issuePath] at h ⊢

theorem eq_rxByte_of_issuePath {i : Instr} (h : issuePath i = .byte) : ∃ b, i = .rxByte b := by
  cases i <;> simp [issuePath] at h ⊢

/-- The operation code in a word names the path of its issuer (30_encoding.md R83). -/
theorem naturalPath_encode (i : Instr) : naturalPath (encode i) = issuePath i := by
  have hop : opField (encode i) = opcode i := opField_packWord _ _ _
  have htick : encode i = 0x08000000#32 → opcode i = 0x08#8 := fun h => by rw [← hop, h]; rfl
  unfold naturalPath
  rw [hop]
  cases i
  case tick => rfl
  all_goals
    rw [if_neg fun h => absurd (htick h) (by simp [opcode])]
    rfl

/-- The word of an operation decodes on no path but its issuer's. -/
theorem issuePath_of_decode_encode {p : Path} {i j : Instr} (h : decode p (encode i) = .legal j) : issuePath i = p := by
  obtain ⟨hrow, hpath⟩ := decode_legal h
  rw [← naturalPath_encode, ← encode_eq_of_matchesRow hrow, naturalPath_encode, hpath]

/-- A word with no legal reading raises ILLEGAL_CMD and nothing else. -/
theorem runWord_of_not_legal {p : Path} {w : Word} {s : State} (hs : s.running) (h : ∀ i, decode p w ≠ .legal i) :
    runWord p w s = .next (s.raise .illegalCmd w) := by
  unfold runWord
  split
  · next i hi => exact absurd hi (h i)
  · exact whenRunning_running s _ hs

/-- Settles O4: a word that decodes has its operation's fields, and no row of the table is reserved. -/
theorem reservedEncodingsRaiseIllegal : Obligations.ReservedEncodingsRaiseIllegal := by
  unfold Obligations.ReservedEncodingsRaiseIllegal
  intro p w hw
  have illegal : ∀ i, decode p w ≠ .legal i := fun i h => not_reservedEncoding_of_matchesRow (decode_legal h).1 hw
  exact ⟨illegal, fun s hs => runWord_of_not_legal hs illegal⟩

/-- Settles O5: a word that decodes is the word of an operation that its path's agent issues. -/
theorem wordsAreBoundToTheirPath : Obligations.WordsAreBoundToTheirPath := by
  unfold Obligations.WordsAreBoundToTheirPath
  intro s w hs
  refine ⟨?_, fun b => ?_, fun hw => ?_, fun hw => ?_⟩ <;>
    refine runWord_of_not_legal hs fun i h => ?_
  · exact Path.noConfusion (issuePath_of_decode_encode h)
  · exact Path.noConfusion (issuePath_of_decode_encode h)
  · obtain ⟨hrow, hpath⟩ := decode_legal h
    obtain ⟨b, rfl⟩ := eq_rxByte_of_issuePath hpath
    exact hw b (encode_eq_of_matchesRow hrow).symm
  · obtain ⟨hrow, hpath⟩ := decode_legal h
    obtain rfl := eq_tick_of_issuePath hpath
    exact hw (encode_eq_of_matchesRow hrow).symm

end Sys2Proof.Machine.DecodeProofs
end

section
/-! SUPPORT. What the expansions of the pseudo-instructions do (30_encoding.md R88). -/

namespace Sys2Proof.Machine.PseudoProofs

open Machine.Laws

/-- An operation that gives a next state hands it to the rest of the list. -/
theorem runAll_cons {i : Instr} {is : List Instr} {s t : State} (h : exec i s = .next t) :
    runAll (i :: is) s = runAll is t := by
  rw [runAll, h]

/-! The single operations, from a ready running state. -/

theorem exec_writeRowbuf {s : State} (hs : s.running) (hr : s.drvReady = true) (i : CellIndex) (v : Byte) :
    exec (.writeRowbuf i.val v) s = .next { s with rowbuf := s.rowbuf.set i.val (some v) } :=
  (execWriteRowbuf_next i.val v s _).2 ⟨hs, .inl ⟨hr, i, cellOf?_some i.val i.isLt, rfl⟩⟩

theorem exec_loadRow {s : State} (hs : s.running) (hr : s.drvReady = true) (r : Row) :
    exec (.loadRow (rowNumber r)) s = .next (s.loadRow r) :=
  (execLoadRow_next (rowNumber r) s _).2 ⟨hs, .inl ⟨hr, r, rowOf?_rowNumber r, rfl⟩⟩

theorem exec_sendRow {s : State} (hs : s.running) (hr : s.drvReady = true) (n : Nat) {px : Vector Byte 24}
    (hpx : s.rowbufBytes? = some px) : exec (.sendRow n) s = .next (s.emit (sendRowSeq n px)) :=
  (execSendRow_next n s _).2 ⟨hs, .inl ⟨hr, px, hpx, rfl⟩⟩

/-! FILL_ROWBUF. -/

/-- The byte of a colour that a channel holds. -/
def channelByte (r g b : Byte) : Channel → Byte
  | .r => r
  | .g => g
  | .b => b

/-- The 24 commands of FILL_ROWBUF write the cells in order, each with its channel's byte. -/
theorem fillRowbuf_cells (r g b : Byte) :
    ((List.finRange Config.cols).flatMap fun c => writePixel c r g b) =
      (List.finRange Config.rowBytes).map fun i => .writeRowbuf i.val (channelByte r g b (channelOf i.val)) := rfl

/-- Writes of ROWBUF cells complete: every cell written, or that held its byte before, holds its byte. -/
theorem runAll_writeRowbuf (f : CellIndex → Byte) (l : List CellIndex) (s : State) (hs : s.running)
    (hr : s.drvReady = true) : ∃ rb : Vector (Option Byte) 24,
      runAll (l.map fun i => .writeRowbuf i.val (f i)) s = .next { s with rowbuf := rb } ∧
        ∀ i : CellIndex, i ∈ l ∨ s.rowbuf[i.val] = some (f i) → rb[i.val] = some (f i) := by
  induction l generalizing s with
  | nil => exact ⟨s.rowbuf, rfl, by simp⟩
  | cons c l ih =>
    obtain ⟨rb, hrun, hcells⟩ := ih { s with rowbuf := s.rowbuf.set c.val (some (f c)) } hs hr
    refine ⟨rb, by rw [List.map_cons, runAll_cons (exec_writeRowbuf hs hr c (f c)), hrun], fun i hi => hcells i ?_⟩
    rw [Vector.getElem_set]
    by_cases hc : c = i
    · simp [hc]
    · simpa [Fin.val_inj, hc, Ne.symm hc] using hi

/-! SHOW_ROW. -/

/-- A row loaded and sent is a row of DISPLAY_FULL. -/
theorem runAll_loadRow_sendRow {s : State} (hs : s.running) (hr : s.drvReady = true) (r : Row) :
    runAll [.loadRow (rowNumber r), .sendRow (rowNumber r)] s = .next (s.showRow r) := by
  rw [runAll_cons (exec_loadRow hs hr r),
    runAll_cons (exec_sendRow (s := s.loadRow r) hs hr (rowNumber r) (rowbufBytes?_loadRow s r))]
  rfl

theorem showRow_eq (s : State) (r : Row) : s.showRow r = { s with
    rowbuf := (s.frameRow r).map some
    lines := runLines s.lines (sendRowSeq (rowNumber r) (s.frameRow r))
    trace := s.trace ++ sendRowSeq (rowNumber r) (s.frameRow r) } := by
  simp [State.showRow, State.emit, State.loadRow]

/-! The expansions. -/

theorem expand_writePixel (col : Col) (r g b : Byte) : expand (.writePixel col r g b) =
    some [.writeRowbuf (3 * col.val) r, .writeRowbuf (3 * col.val + 1) g, .writeRowbuf (3 * col.val + 2) b] := by
  rw [Nat.mul_comm 3]; rfl

theorem expand_rxFrame (F : Vector Byte 192) : expand (.rxFrame F) =
    if 0xFF#8 ∈ F.toList then none else some (F.toList.map Instr.rxByte) := by
  simp only [expand, List.contains_iff_mem]

/-- Settles O57: each expansion by its definition; FILL_ROWBUF writes the 24 cells one after another, and SHOW_ROW does what
DISPLAY_FULL does for one row. -/
theorem pseudoInstructionsExpand : Obligations.PseudoInstructionsExpand := by
  unfold Obligations.PseudoInstructionsExpand
  refine ⟨fun r g b col => expand_writePixel col r g b, fun r g b s hs hr => ?_, rfl, fun F => ?_,
    fun row s hs hr => ⟨rfl, by rw [runAll_loadRow_sendRow hs hr, showRow_eq]⟩⟩
  · obtain ⟨rb, hrun, hcells⟩ := runAll_writeRowbuf (fun i => channelByte r g b (channelOf i.val))
      (List.finRange Config.rowBytes) s hs hr
    rw [← fillRowbuf_cells] at hrun
    exact ⟨_, rb, rfl, rfl, rfl, hrun, fun i => hcells i (.inl (List.mem_finRange i))⟩
  · rw [expand_rxFrame]
    exact ⟨by simp, fun h => if_neg h⟩

end Sys2Proof.Machine.PseudoProofs
end

section
/-! SUPPORT. The operations of the line sequencer (40_sequencer.md): their words, the events they emit one by one, and what
each leaves. -/

namespace Sys2Proof.Machine.SequencerProofs

open Sys2Proof.Laws Machine.Laws

/-! Words (30_encoding.md R80, R82). -/

/-- The fields of a word lie side by side. -/
theorem toNat_packWord (op a b : Byte) :
    (packWord op a b).toNat = op.toNat * 0x1000000 + a.toNat * 0x10000 + b.toNat := by
  have ha := a.isLt
  have hb := b.isLt
  unfold packWord
  rw [BitVec.toNat_append, BitVec.toNat_append, BitVec.toNat_append,
    ← Nat.shiftLeft_add_eq_or_of_lt ha, ← Nat.shiftLeft_add_eq_or_of_lt (BitVec.isLt 0#8),
    ← Nat.shiftLeft_add_eq_or_of_lt hb]
  simp only [Nat.shiftLeft_eq, BitVec.toNat_ofNat]
  omega

/-- A packed word as the number the spec writes for it. -/
theorem packWord_eq_ofNat (op a b : Byte) :
    packWord op a b = BitVec.ofNat 32 (op.toNat * 0x1000000 + a.toNat * 0x10000 + b.toNat) := by
  rw [← toNat_packWord, BitVec.ofNat_toNat, BitVec.setWidth_eq]

/-- The word of a well-formed operation decodes to it on its issuer's path: an index operand fits the A field. -/
theorem decode_encode {i : Instr} (h : i.wellFormed = true) : decode (issuePath i) (encode i) = .legal i := by
  unfold decode encode
  simp only [opField_packWord, aField_packWord, zField_packWord, bField_packWord]
  have fits : ∀ n, decide (n < 256) = true → (BitVec.ofNat 8 n).toNat = n := fun n hn =>
    Nat.mod_eq_of_lt (of_decide_eq_true hn)
  cases i with
  | writeRowbuf cell v => exact congrArg (fun n => Decoded.legal (.writeRowbuf n v)) (fits cell h)
  | loadRow row => exact congrArg (fun n => Decoded.legal (.loadRow n)) (fits row h)
  | sendRow row => exact congrArg (fun n => Decoded.legal (.sendRow n)) (fits row h)
  | _ => rfl

/-- The encoding rule of an operation, once its word is known. -/
theorem encodedAs {i : Instr} {w : Word} (hwf : i.wellFormed = true) (hw : encode i = w) : EncodedAs i w := by
  subst hw
  refine ⟨rfl, fun s => ?_, fun bad s _ hbad hs => (DecodeProofs.reservedEncodingsRaiseIllegal _ bad hbad).2 s hs⟩
  rw [runWord, decode_encode hwf]

theorem encode_writeRowbuf {cell : Nat} (h : cell < 256) (v : Byte) :
    encode (.writeRowbuf cell v) = BitVec.ofNat 32 (0x03000000 + cell * 0x10000 + v.toNat) := by
  simp [encode, packWord_eq_ofNat, opcode, aOperand, bOperand, Nat.mod_eq_of_lt h]

theorem encode_sendRow {r : Nat} (h : r < 256) :
    encode (.sendRow r) = BitVec.ofNat 32 (0x05000000 + r * 0x10000) := by
  simp [encode, packWord_eq_ofNat, opcode, aOperand, bOperand, Nat.mod_eq_of_lt h]

/-! Emitting Set events (40_sequencer.md R100). -/

/-- Set events move the lines and are recorded, and take no time. -/
theorem emit_onlySets (s : State) {es : List Event} (h : onlySets es = true) :
    s.emit es = { s with lines := runLines s.lines es, trace := s.trace ++ es } := by
  simp [State.emit, waitedMs_onlySets es h]

/-! The bank initialization and INIT (40_sequencer.md R109, R111). -/

theorem flatMap_shiftBit_ones (n : Nat) : (List.replicate n true).flatMap shiftBit =
    (List.replicate n [Event.set .sda .hi, .set .clk .hi, .set .clk .lo]).flatten := by
  rw [List.flatMap_def, List.map_replicate]; rfl

theorem bankInitSeq_events : bankInitSeq = [.set .en .lo]
    ++ (List.replicate 144 [Event.set .sda .hi, .set .clk .hi, .set .clk .lo]).flatten
    ++ [.set .lat .lo, .set .lat .hi, .set .en .hi] := by
  rw [← flatMap_shiftBit_ones, bankInitSeq, List.append_assoc _ latchPulse]; rfl

theorem initSeq_eq_bankInitSeq : initSeq = [.config configLevels, .wait 100, .set .rst .hi] ++ bankInitSeq := by
  simp [initSeq, initTail]

theorem waitedMs_initSeq : waitedMs initSeq = 100 := by
  rw [initSeq_eq_bankInitSeq, waitedMs_append, waitedMs_bankInitSeq]; rfl

theorem configLevels_lineIndex (l : Line) :
    configLevels[(lineIndex l).val] = if l = .en ∨ l = .lat then .hi else .lo := by
  have all : ∀ l ∈ allLines, configLevels[(lineIndex l).val] = if l = .en ∨ l = .lat then .hi else .lo := by decide
  exact all l (mem_allLines l)

/-- Settles O28: INIT's events are emitted in one list, whose one Wait is 100 ms. -/
theorem initConstructsTheDriver : Obligations.InitConstructsTheDriver := by
  unfold Obligations.InitConstructsTheDriver
  refine ⟨encodedAs rfl rfl, ?_, length_initSeq, configLevels_lineIndex, fun s hs => ⟨fun hr => ?_, fun hr => ?_⟩⟩
  · rw [initSeq_eq_bankInitSeq, bankInitSeq_events]; rfl
  · exact (execInit_next s _).2 ⟨hs, .inl ⟨hr, rfl⟩⟩
  · refine ⟨runLines s.lines initSeq, s.now.add (Time.ofMillis (waitedMs initSeq)),
      (execInit_next s _).2 ⟨hs, .inr ⟨hr, rfl⟩⟩, ?_, fun l => ?_⟩
    · rw [waitedMs_initSeq]
      simp only [Time.add, Time.ofMillis]
      norm_num
    · rw [lineLevel_initSeq]
      cases l <;> simp

/-- Settles O29: BANK_INIT emits the bank initialization, which is Set events only. -/
theorem bankInitArmsTheChip : Obligations.BankInitArmsTheChip := by
  unfold Obligations.BankInitArmsTheChip
  refine ⟨encodedAs rfl rfl, bankInitSeq_events, length_bankInitSeq, fun s hs => ⟨fun hr => ?_, fun hr => ?_⟩⟩
  · exact (execBankInit_next s _).2 ⟨hs, .inr ⟨hr, rfl⟩⟩
  · refine ⟨runLines s.lines bankInitSeq, ?_, fun l => ?_⟩
    · rw [← emit_onlySets s onlySets_bankInitSeq]
      exact (execBankInit_next s _).2 ⟨hs, .inl ⟨hr, rfl⟩⟩
    · rw [lineLevel_bankInitSeq]
      cases l <;> simp [State.line]

/-! The row buffer (40_sequencer.md R113, R115). -/

/-- Settles O30: the three answers of WRITE_ROWBUF, by readiness and range. -/
theorem writeRowbufWritesOneCell : Obligations.WriteRowbufWritesOneCell := by
  unfold Obligations.WriteRowbufWritesOneCell
  intro cell v s hs
  refine ⟨fun h => encodedAs (decide_eq_true h) (encode_writeRowbuf h v), fun hr => ?_, fun hr hc => ?_, fun hr hc => ?_⟩
  · exact (execWriteRowbuf_next cell v s _).2 ⟨hs, .inr (.inr ⟨hr, rfl⟩)⟩
  · exact (execWriteRowbuf_next cell v s _).2 ⟨hs, .inr (.inl ⟨hr, cellOf?_none cell (by omega), rfl⟩)⟩
  · refine ⟨s.rowbuf.set cell (some v), PseudoProofs.exec_writeRowbuf hs hr ⟨cell, hc⟩ v, fun i => ?_⟩
    rw [Vector.getElem_set]
    simp only [eq_comm]

/-- ROWBUF cell by cell: its bytes, if every cell is written. -/
theorem rowbufBytes?_of_cells {s : State} {px : Vector Byte 24}
    (h : ∀ i : CellIndex, s.rowbuf[i.val] = some px[i.val]) : s.rowbufBytes? = some px := by
  rw [rowbufBytes?_some]
  ext i hi : 1
  simpa using h ⟨i, hi⟩

/-- Settles O31: the three answers of SEND_ROW, by readiness and the row buffer. -/
theorem sendRowTransmitsTheRowBuffer : Obligations.SendRowTransmitsTheRowBuffer := by
  unfold Obligations.SendRowTransmitsTheRowBuffer
  intro r s hs
  refine ⟨fun h => encodedAs (decide_eq_true h) (encode_sendRow h), fun hr => ?_, fun hr hnone => ?_, fun px hr hpx => ?_⟩
  · exact (execSendRow_next r s _).2 ⟨hs, .inr (.inr ⟨hr, rfl⟩)⟩
  · exact (execSendRow_next r s _).2 ⟨hs, .inr (.inl ⟨hr, (rowbufBytes?_none s).2 hnone, rfl⟩)⟩
  · rw [← emit_onlySets s (onlySets_sendRowSeq r px)]
    exact ⟨PseudoProofs.exec_sendRow hs hr r (rowbufBytes?_of_cells hpx), length_sendRowSeq r px⟩

/-! The events of a row send, one by one (40_sequencer.md R103, R104, R110). -/

/-- Where every element gives `n` items, item `n * k + i` of them all is item `i` of element `k`. -/
theorem getElem?_flatMap_of_length {α β : Type} {f : α → List β} {n : Nat} (hf : ∀ x, (f x).length = n)
    (l : List α) (k : Nat) {i : Nat} (hi : i < n) :
    (l.flatMap f)[n * k + i]? = l[k]?.bind fun x => (f x)[i]? := by
  induction l generalizing k with
  | nil => simp
  | cons x l ih =>
    rw [List.flatMap_cons]
    cases k with
    | zero => rw [List.getElem?_append_left (by rw [hf]; omega)]; simp
    | succ k =>
      rw [List.getElem?_append_right (by rw [hf, Nat.mul_succ]; omega), hf,
        show n * (k + 1) + i - n = n * k + i by rw [Nat.mul_succ]; omega, ih]
      simp

theorem length_shiftBit (v : Bool) : (shiftBit v).length = 3 := rfl

/-- Event `i` of bit `j` of a byte, counted from the most significant. -/
theorem getElem?_shiftByte (x : Byte) {j i : Nat} (hj : j < 8) (hi : i < 3) :
    (shiftByte x)[3 * j + i]? = (shiftBit (x.getLsbD (7 - j)))[i]? := by
  have bit : (byteBits x)[j]? = some (x.getLsbD (7 - j)) := by interval_cases j <;> rfl
  rw [shiftByte, getElem?_flatMap_of_length length_shiftBit _ _ hi, bit]
  rfl

/-- Event `i` of bit `j` of some bytes sent one after another. -/
theorem getElem?_flatMap_shiftByte (bs : List Byte) (j : Nat) {i : Nat} (hi : i < 3) :
    (bs.flatMap shiftByte)[3 * j + i]? = bs[j / 8]?.bind fun x => (shiftBit (x.getLsbD (7 - j % 8)))[i]? := by
  have hj : j % 8 < 8 := Nat.mod_lt _ (by decide)
  rw [show 3 * j + i = 24 * (j / 8) + (3 * (j % 8) + i) by omega,
    getElem?_flatMap_of_length length_shiftByte _ _ (by omega)]
  simp only [getElem?_shiftByte _ hj hi]

/-- Byte `k` of a row send is the gamma-corrected cell `23 - k` (20_memory.md R56). -/
theorem getElem?_sentBytes (px : Vector Byte 24) {k : Nat} (hk : k < 24) :
    (sentBytes px)[k]? = some (Config.gamma (channelOf (23 - k)) px[23 - k]) := by
  interval_cases k <;> rfl

/-- The first 15 bytes of a row send. -/
def beforeBlanking (px : Vector Byte 24) : List Event := ((sentBytes px).take 15).flatMap shiftByte

/-- The last 9 bytes of a row send. -/
def afterBlanking (px : Vector Byte 24) : List Event := ((sentBytes px).drop 15).flatMap shiftByte

theorem length_beforeBlanking (px : Vector Byte 24) : (beforeBlanking px).length = 360 := by
  rw [beforeBlanking, length_flatMap_shiftByte, List.length_take, length_sentBytes]; rfl

theorem length_afterBlanking (px : Vector Byte 24) : (afterBlanking px).length = 216 := by
  rw [afterBlanking, length_flatMap_shiftByte, List.length_drop, length_sentBytes]

theorem sendRowSeq_eq_blanking (r : Nat) (px : Vector Byte 24) : sendRowSeq r px =
    beforeBlanking px ++ .set (prevLine r) .lo ::
      (afterBlanking px ++ [.set .lat .lo, .set .lat .hi, .set (rowLine r) .hi]) := by
  rw [sendRowSeq_eq]
  simp [beforeBlanking, afterBlanking, latchPulse]

/-- The events before the blanking. -/
theorem getElem?_sendRowSeq_before (r : Nat) (px : Vector Byte 24) {n : Nat} (hn : n < 360) :
    (sendRowSeq r px)[n]? = (beforeBlanking px)[n]? := by
  rw [sendRowSeq_eq_blanking, List.getElem?_append_left (by rw [length_beforeBlanking]; exact hn)]

theorem getElem?_sendRowSeq_blanking (r : Nat) (px : Vector Byte 24) :
    (sendRowSeq r px)[360]? = some (.set (prevLine r) .lo) := by
  rw [sendRowSeq_eq_blanking, List.getElem?_append_right (by rw [length_beforeBlanking]), length_beforeBlanking]
  rfl

/-- The events after the blanking. -/
theorem getElem?_sendRowSeq_after (r : Nat) (px : Vector Byte 24) (n : Nat) :
    (sendRowSeq r px)[361 + n]? = (afterBlanking px ++ [.set .lat .lo, .set .lat .hi, .set (rowLine r) .hi])[n]? := by
  rw [sendRowSeq_eq_blanking, List.getElem?_append_right (by rw [length_beforeBlanking]; omega), length_beforeBlanking,
    show 361 + n - 360 = n + 1 by omega, List.getElem?_cons_succ]

/-- The events after the 192 bits: the latch pulse and the row-select assert. -/
theorem getElem?_sendRowSeq_end (r : Nat) (px : Vector Byte 24) (n : Nat) :
    (sendRowSeq r px)[577 + n]? = ([.set .lat .lo, .set .lat .hi, .set (rowLine r) .hi] : List Event)[n]? := by
  rw [show 577 + n = 361 + (216 + n) by omega, getElem?_sendRowSeq_after,
    List.getElem?_append_right (by rw [length_afterBlanking]; omega), length_afterBlanking, Nat.add_sub_cancel_left]

/-- Bit `j` of the 192 of a row, as it is sent. -/
def sentBit (px : Vector Byte 24) (j : Fin 192) : Bool :=
  (Config.gamma (channelOf (23 - j.val / 8)) (px[23 - j.val / 8]'(by omega))).getLsbD (7 - j.val % 8)

/-- Event `i` of bit `j` of a row send: the blanking comes between bits 119 and 120. -/
theorem getElem?_sendRowSeq_bit (r : Nat) (px : Vector Byte 24) (j : Fin 192) {i : Nat} (hi : i < 3) :
    (sendRowSeq r px)[(if j.val < 120 then 3 * j.val else 3 * j.val + 1) + i]? = (shiftBit (sentBit px j))[i]? := by
  have byte := getElem?_sentBytes px (k := j.val / 8) (by omega)
  split
  · rw [getElem?_sendRowSeq_before r px (by omega), beforeBlanking, getElem?_flatMap_shiftByte _ _ hi,
      List.getElem?_take_of_lt (by omega), byte]
    rfl
  · obtain ⟨m, hm⟩ : ∃ m, j.val = 120 + m := ⟨j.val - 120, by omega⟩
    rw [show 3 * j.val + 1 + i = 361 + (3 * m + i) by omega, getElem?_sendRowSeq_after,
      List.getElem?_append_left (by rw [length_afterBlanking]; omega), afterBlanking, getElem?_flatMap_shiftByte _ _ hi,
      List.getElem?_drop, show 15 + m / 8 = j.val / 8 by omega, show m % 8 = j.val % 8 by omega, byte]
    rfl

/-- Settles O32: each event by its place before the blanking, after it, or after the bits. -/
theorem rowSendEventsAreInOrder : Obligations.RowSendEventsAreInOrder := by
  unfold Obligations.RowSendEventsAreInOrder
  intro r px
  refine ⟨length_sendRowSeq r px, fun j => ⟨?_, ?_, ?_⟩, getElem?_sendRowSeq_blanking r px,
    getElem?_sendRowSeq_end r px 0, getElem?_sendRowSeq_end r px 1, getElem?_sendRowSeq_end r px 2⟩
  · exact getElem?_sendRowSeq_bit r px j (i := 0) (by decide)
  · exact getElem?_sendRowSeq_bit r px j (i := 1) (by decide)
  · exact getElem?_sendRowSeq_bit r px j (i := 2) (by decide)

/-! The row-select lines (40_sequencer.md R106, R107). -/

theorem rowLine_outside {i : Nat} (h : i < 1 ∨ 8 < i) : rowLine i = .row 7 := by
  rw [rowLine, rowOf?_none i (by omega)]

/-- Settles O34: the fallback outside 1..8; the previous line by its definition. -/
theorem rowLinesOfEveryIndex : Obligations.RowLinesOfEveryIndex := by
  unfold Obligations.RowLinesOfEveryIndex
  refine ⟨rowLine_rowNumber, fun i h => rowLine_outside h, fun r => rfl, fun r h1 h2 => ?_, rfl, rfl, rfl, rfl⟩
  rw [prevLine, show (r + 7) % 8 = r - 1 by omega]

/-! DISPLAY_FULL (40_sequencer.md R118). -/

/-- Rows sent one after another are 580 events each. -/
theorem length_flatMap_sendRowSeq (l : List Row) (px : Row → Vector Byte 24) :
    (l.flatMap fun r => sendRowSeq (rowNumber r) (px r)).length = 580 * l.length := by
  simp [List.length_flatMap, length_sendRowSeq, Nat.mul_comm]

theorem frameRow_getElem (s : State) (r : Row) (i : CellIndex) :
    (s.frameRow r)[i.val] = s.frameRead s.cur (rowOffset r i) := by
  simp [State.frameRow]

/-- Settles O39: the eight rows sent one after another, row 8 the last. -/
theorem displayFullSendsTheCurrentFrame : Obligations.DisplayFullSendsTheCurrentFrame := by
  unfold Obligations.DisplayFullSendsTheCurrentFrame
  refine ⟨encodedAs rfl rfl, fun s hs => ⟨fun hr => ?_, fun hr => ?_⟩⟩
  · exact (execDisplayFull_next s _).2 ⟨hs, .inr ⟨hr, rfl⟩⟩
  · obtain ⟨rb, hrows, hlast, _⟩ := fold_showRow (List.finRange Config.rows) s
    refine ⟨rb, _, (execDisplayFull_next s _).2 ⟨hs, .inl ⟨hr, hrows.symm⟩⟩, rfl,
      length_flatMap_sendRowSeq _ _, fun i => ?_⟩
    rw [hlast (by decide), Vector.getElem_map, frameRow_getElem]
    rfl

end Sys2Proof.Machine.SequencerProofs
end

section
/-! SUPPORT. The host frame producer (41_host_port.md): what RX_BYTE does in each of its cases, and the gradient pattern. -/

namespace Sys2Proof.Machine.HostPortProofs

open Machine.Laws FrameLayoutProofs RolesProofs SequencerProofs

/-! RX_BYTE (41_host_port.md R141). -/

theorem encode_rxByte (b : Byte) : encode (.rxByte b) = BitVec.ofNat 32 (0x10000000 + b.toNat) := by
  simp [encode, packWord_eq_ofNat, opcode, aOperand, bOperand]

/-- A read after FrameWrite: the byte at its place, and what was there before at every other. -/
theorem memRead_frameWrite (s : State) (x y : Slot) (off o : Offset) (v : Byte) :
    memRead (s.frameWrite x off v).mem (flatAddr y o) = if y = x ∧ o = off then v else s.frameRead y o := by
  rw [State.frameWrite, memRead_memWrite]
  simp only [flatAddr_injective, eq_comm (a := x), eq_comm (a := off)]
  rfl

theorem exec_rxByte_resync {s : State} (hs : s.running) : exec (.rxByte 0xFF#8) s = .next { s with cursor := 0 } :=
  (execRxByte_next 0xFF#8 s _).2 ⟨hs, .inl ⟨rfl, rfl⟩⟩

/-- A byte before the last one is written, and CURSOR advances. -/
theorem exec_rxByte_of_lt {b : Byte} {s : State} (hs : s.running) (hb : b ≠ 0xFF#8)
    (h : s.cursor.val + 1 < Config.frameBytes) : exec (.rxByte b) s =
      .next { s.frameWrite s.rcv s.cursor b with cursor := ⟨s.cursor.val + 1, h⟩ } :=
  (execRxByte_next b s _).2 ⟨hs, .inr (.inl ⟨hb, h, rfl⟩)⟩

/-- The last byte of a frame is written, and the frame completes. -/
theorem exec_rxByte_of_last {b : Byte} {s : State} (hs : s.running) (hb : b ≠ 0xFF#8) (h : s.cursor.val = 191) :
    exec (.rxByte b) s = .next ((s.frameWrite s.rcv s.cursor b).completeFrame (encode (.rxByte b))) :=
  (execRxByte_next b s _).2 ⟨hs, .inr (.inr ⟨hb, by rw [h]; decide, rfl⟩)⟩

/-- A completion always finds a slot to receive into (41_host_port.md R143). -/
theorem completeFrame_eq (s : State) (w : Word) : ∃ x, s.installPending.alloc = some x ∧ s.completeFrame w =
    { s with mem := memFill s.mem x Config.freshPattern, cursor := 0, pend := some s.rcv, rcv := x } := by
  rcases completeFrame_cases s w with ⟨x, hx, eq⟩ | ⟨full, _⟩
  · exact ⟨x, hx, eq⟩
  · exact absurd full (installPending_alloc_ne_none s)

/-- Settles O48: the three cases of `execRxByte_next`; a completion fills the slot Alloc gives, after the last byte is
written. -/
theorem rxByteTakesOneByte : Obligations.RxByteTakesOneByte := by
  unfold Obligations.RxByteTakesOneByte
  refine fun b s hs => ⟨encodedAs rfl (encode_rxByte b), ?_, fun hb hc => ?_, fun hb hc => ?_⟩
  · rintro rfl
    exact exec_rxByte_resync hs
  · exact ⟨_, _, exec_rxByte_of_lt hs hb (Nat.succ_lt_succ hc), rfl, fun x o => memRead_frameWrite s s.rcv x s.cursor o b⟩
  · obtain ⟨x, halloc, hdone⟩ := completeFrame_eq (s.frameWrite s.rcv s.cursor b) (encode (.rxByte b))
    refine ⟨_, x, by rw [exec_rxByte_of_last hs hb hc, hdone]; rfl, halloc, fun y o => ?_⟩
    rw [memRead_memFill, memRead_frameWrite]

/-! The gradient pattern (41_host_port.md R149). -/

theorem gradientFrame_frameOffset (base : Channel → Byte) (row : Row) (col : Col) (ch : Channel) :
    gradientFrame base (frameOffset row col ch) =
      BitVec.ofNat 8 (gradientLevel base (rowNumber row) (col.val + 1) ch) := by
  rw [gradientFrame, frameOffset_row, frameOffset_col, channelOf_frameOffset]
  rfl

/-- A larger divisor gives no larger a quotient. -/
theorem gradientLevel_antitone (base : Channel → Byte) (ch : Channel) {row col row' col' : Nat}
    (h : row * row + col ≤ row' * row' + col') : gradientLevel base row' col' ch ≤ gradientLevel base row col ch :=
  Nat.div_le_div_left (by omega) (by omega)

/-- The brightest pixel, (1,1), shows a third of the base level. -/
theorem gradientFrame_brightest_toNat (base : Channel → Byte) (ch : Channel) :
    (gradientFrame base (frameOffset 0 0 ch)).toNat = (base ch).toNat / 3 := by
  have fits : (base ch).toNat / 3 < 2 ^ 8 := by have := (base ch).isLt; omega
  rw [gradientFrame_frameOffset, BitVec.toNat_ofNat]
  exact Nat.mod_eq_of_lt fits

/-- Settles O56: the layout's inverse gives the formula, the divisor grows with row² + col, and pixel (1,1) is not dark. -/
theorem gradientPattern : Obligations.GradientPattern := by
  unfold Obligations.GradientPattern
  refine fun base ch => ⟨fun row col => gradientFrame_frameOffset base row col ch,
    fun _ _ _ _ h => gradientLevel_antitone base ch h, fun h => ⟨frameOffset 0 0 ch, fun dark => ?_⟩⟩
  have third := gradientFrame_brightest_toNat base ch
  rw [dark, BitVec.toNat_ofNat] at third
  omega

end Sys2Proof.Machine.HostPortProofs
end

section
/-! SUPPORT. The operations of the row-scan multiplexer (42_row_scan.md): LOAD_ROW, ARM and TICK. -/

namespace Sys2Proof.Machine.RowScanProofs

open Machine.Laws SequencerProofs

/-! LOAD_ROW (42_row_scan.md R162). -/

theorem encode_loadRow {row : Nat} (h : row < 256) :
    encode (.loadRow row) = BitVec.ofNat 32 (0x04000000 + row * 0x10000) := by
  simp [encode, packWord_eq_ofNat, opcode, aOperand, bOperand, Nat.mod_eq_of_lt h]

/-- A cell of a row, by its byte offset in the current frame (20_memory.md R53). -/
theorem frameRow_getElem_of_offset (s : State) {r : Row} {i : CellIndex} {o : Offset}
    (h : o.val = r.val * 24 + i.val) : (s.frameRow r)[i.val] = s.frameRead s.cur o := by
  rw [frameRow_getElem, show rowOffset r i = o from Fin.ext h.symm]

/-- The row indices 1..8 are the row numbers. -/
theorem exists_rowNumber {n : Nat} (hlow : 1 ≤ n) (hhigh : n ≤ 8) : ∃ r : Row, n = rowNumber r :=
  ⟨⟨n - 1, show n - 1 < 8 by omega⟩, (Nat.sub_add_cancel hlow).symm⟩

/-- Settles O41: the three answers of LOAD_ROW, by readiness and range. -/
theorem loadRowCopiesTheRow : Obligations.LoadRowCopiesTheRow := by
  unfold Obligations.LoadRowCopiesTheRow
  intro row s hs
  refine ⟨fun h => encodedAs (decide_eq_true h) (encode_loadRow h), fun hr => ?_, fun hr hrow => ?_,
    fun hr hlow hhigh => ?_⟩
  · exact (execLoadRow_next row s _).2 ⟨hs, .inr (.inr ⟨hr, rfl⟩)⟩
  · exact (execLoadRow_next row s _).2 ⟨hs, .inr (.inl ⟨hr, rowOf?_none row (by omega), rfl⟩)⟩
  · obtain ⟨r, rfl⟩ := exists_rowNumber hlow hhigh
    refine ⟨(s.frameRow r).map some, PseudoProofs.exec_loadRow hs hr r, fun i o ho => ?_⟩
    rw [Vector.getElem_map, frameRow_getElem_of_offset s (r := r) ho]

/-! ARM (42_row_scan.md R163). -/

/-- The first deadline is not before ARM ends (92_eei_decisions.md D14). -/
theorem notAfter_firstDeadline (armEnd : Time) : armEnd.notAfter (firstDeadline armEnd) := by
  simp only [Time.notAfter, firstDeadline, Time.add]
  exact le_add_of_nonneg_right (Time.ofNNRat Config.firstDelay).nonneg

/-- Settles O42: the three answers of ARM, by readiness and ARMED; the first deadline is a delay after the end of ARM. -/
theorem armStartsTheScan : Obligations.ArmStartsTheScan := by
  unfold Obligations.ArmStartsTheScan
  refine ⟨encodedAs rfl rfl, fun s hs => ⟨fun hr => ?_, fun hr ha => ?_, fun hr ha => ?_⟩⟩
  · exact (execArm_next s _).2 ⟨hs, .inr (.inr ⟨hr, rfl⟩)⟩
  · exact (execArm_next s _).2 ⟨hs, .inl ⟨hr, ha, rfl⟩⟩
  · exact ⟨firstDeadline s.now, (execArm_next s _).2 ⟨hs, .inr (.inl ⟨hr, ha, rfl⟩)⟩, notAfter_firstDeadline s.now⟩

/-! TICK (42_row_scan.md R165, R167). -/

/-- The state in which TICK sends its row: at a frame boundary the handoff is done. -/
def tickStart (s : State) : State :=
  { s with cur := tickSlot s, pend := if s.nextRow = 0 then none else s.pend }

/-- A tick that is not refused shows the row of NEXTROW and moves the scan on. -/
theorem exec_tick {s : State} (hs : s.running) (hr : s.drvReady = true) :
    exec .tick s = .next ((tickStart s).showRow s.nextRow).advanceScan :=
  (execTick_next s _).2 ⟨hs, .inl ⟨hr, rfl⟩⟩

/-- Settles O43: TICK is the handoff, the row of NEXTROW sent as DISPLAY_FULL sends one, and the scan moved on. -/
theorem tickSendsOneRowOfTheScan : Obligations.TickSendsOneRowOfTheScan := by
  unfold Obligations.TickSendsOneRowOfTheScan
  refine ⟨encodedAs rfl rfl, fun s d hs hr hd => ⟨(tickStart s).frameRow s.nextRow, fun i o ho => ?_, ?_, rfl, rfl⟩⟩
  · exact frameRow_getElem_of_offset (tickStart s) ho
  · rw [exec_tick hs hr, PseudoProofs.showRow_eq]
    simp [State.advanceScan, tickStart, hd]

end Sys2Proof.Machine.RowScanProofs
end

section
/-! SUPPORT. The fatal faults (60_exceptions.md): no operation runs once FAULT is set, a faulting operation only raises, and
the readiness check comes before every other. -/

namespace Sys2Proof.Machine.ExceptionProofs

open Machine.Laws HostPortProofs

/-! The stop (60_exceptions.md R191). -/

theorem whenRunning_halted {s : State} {c : FaultCode} {w : Word} (h : s.fault = some (c, w))
    (body : Host.Outcome State Fault Refusal) : whenRunning s body = .fault (.halted c w) := by
  unfold whenRunning
  rw [h]

/-- Every operation begins with the check of FAULT (40_sequencer.md R108 (1)). -/
theorem exec_eq_whenRunning (i : Instr) (s : State) : ∃ body, exec i s = whenRunning s body := by
  cases i <;> exact ⟨_, rfl⟩

theorem exec_halted {s : State} {c : FaultCode} {w : Word} (h : s.fault = some (c, w)) (i : Instr) :
    exec i s = .fault (.halted c w) := by
  obtain ⟨body, eq⟩ := exec_eq_whenRunning i s
  rw [eq, whenRunning_halted h]

/-! A faulting operation (60_exceptions.md R191). -/

@[simp] theorem perform_fault (s : State) (k : Task) : (s.perform k).fault = s.fault := by
  cases k <;> simp [State.perform]

@[simp] theorem performAll_fault (s : State) (ts : List Task) : (s.performAll ts).fault = s.fault := by
  induction ts generalizing s with
  | nil => rfl
  | cons k ts ih => rw [performAll_cons, ih, perform_fault]

/-- A received byte raises nothing: a completion always finds a slot. -/
theorem fault_eq_none_of_execRxByte {b : Byte} {s t : State} (h : execRxByte b s = .next t) : t.fault = none := by
  obtain ⟨hs, ⟨_, rfl⟩ | ⟨_, _, rfl⟩ | ⟨_, _, rfl⟩⟩ := (execRxByte_next b s t).1 h
  · exact hs
  · exact hs
  · obtain ⟨x, _, eq⟩ := completeFrame_eq (s.frameWrite s.rcv s.cursor b) (encode (.rxByte b))
    rw [eq]
    exact hs

/-- Every operation but RX_BYTE has a plan. -/
theorem eq_rxByte_or_exists_planOf (i : Instr) (s : State) : (∃ b, i = .rxByte b) ∨ ∃ p, planOf i s = some p := by
  cases i
  case rxByte b => exact .inl ⟨b, rfl⟩
  all_goals exact .inr ⟨_, rfl⟩

/-- An operation whose plan is a fault raises it with its own word. -/
theorem exec_of_planOf_raises {i : Instr} {s : State} {c : FaultCode} (hs : s.running)
    (h : planOf i s = some (.raises c)) : exec i s = .next (s.raise c (encode i)) := by
  rw [exec_planOf i s _ h]
  exact (execute_next s _ _ _).2 ⟨hs, .inl ⟨c, rfl, rfl⟩⟩

/-- An operation that leaves FAULT set has raised the fault of its plan, and done nothing else: the tasks of a plan set no
FAULT, and neither does a received byte. -/
theorem eq_raise_of_exec_fault {i : Instr} {s t : State} (h : exec i s = .next t) (hf : t.fault ≠ none) :
    ∃ c, planOf i s = some (.raises c) ∧ t = s.raise c (encode i) := by
  obtain ⟨b, rfl⟩ | ⟨p, hp⟩ := eq_rxByte_or_exists_planOf i s
  · exact absurd (fault_eq_none_of_execRxByte h) hf
  · rw [exec_planOf i s p hp] at h
    obtain ⟨hs, ⟨c, rfl, ht⟩ | ⟨ts, _, rfl⟩⟩ := (execute_next s t _ p).1 h
    · exact ⟨c, hp, ht⟩
    · exact absurd ((performAll_fault s ts).trans hs) hf

/-- Settles O23: `step` and every operation begin with the check of FAULT, and an operation that leaves it set has only
raised. -/
theorem faultStopsEveryAgent : Obligations.FaultStopsEveryAgent := by
  unfold Obligations.FaultStopsEveryAgent
  refine ⟨fun s c w h => ⟨whenRunning_halted h _, exec_halted h⟩, fun i s t h hf => ?_⟩
  obtain ⟨c, _, rfl⟩ := eq_raise_of_exec_fault h hf
  exact ⟨raise_trace s c _, raise_lines s c _⟩

/-! Readiness (60_exceptions.md R192). -/

theorem ifReady_of_not_ready {s : State} (hr : s.drvReady = false) (p : Plan) : s.ifReady p = .raises .notReady := by
  unfold State.ifReady
  rw [hr]
  rfl

/-- The plan of every operation but INIT and RX_BYTE is behind the readiness check. -/
theorem planOf_eq_ifReady {i : Instr} (hi : i ≠ .init) (hb : receivedByte i = none) (s : State) :
    ∃ p, planOf i s = some (s.ifReady p) := by
  cases i
  case init => exact absurd rfl hi
  case rxByte b => exact absurd hb (Option.some_ne_none b)
  all_goals exact ⟨_, rfl⟩

/-- Settles O26: before INIT the readiness check answers for every other command; after it INIT has its own. -/
theorem commandsNeedTheirReadiness : Obligations.CommandsNeedTheirReadiness := by
  unfold Obligations.CommandsNeedTheirReadiness
  refine fun i s hs => ⟨fun hr hi hb => ?_, fun hr => (execInit_next s _).2 ⟨hs, .inl ⟨hr, rfl⟩⟩⟩
  obtain ⟨p, hp⟩ := planOf_eq_ifReady hi hb s
  rw [ifReady_of_not_ready hr] at hp
  exact exec_of_planOf_raises hs hp

end Sys2Proof.Machine.ExceptionProofs
end

section
/-! SUPPORT. Power-on (70_reset_and_hazards.md section 1): the lines, the row buffer and the frame store of the reset state. -/

namespace Sys2Proof.Machine.ResetProofs

/-! The frame store lists nothing, so every byte of it reads as the power-on contents of its slot. -/

theorem unlisted_flatAddr_zero (o : Offset) : unlisted (flatAddr 0 o) = Config.initialCurrent o := by
  have addr : flatAddr 0 o = o.val := by simp [flatAddr]
  rw [addr, unlisted, dif_pos o.isLt]

theorem unlisted_flatAddr_one (o : Offset) : unlisted (flatAddr 1 o) = Config.initialReceive o := by
  have addr : flatAddr 1 o = 192 + o.val := rfl
  simp [addr, unlisted]

theorem unlisted_flatAddr_two (o : Offset) : unlisted (flatAddr 2 o) = Config.initialFree o := by
  have addr : flatAddr 2 o = 384 + o.val := rfl
  have notFirst : ¬ 384 + o.val < 192 := by omega
  have notSecond : ¬ 384 + o.val - 192 < 192 := by omega
  simp [addr, unlisted, notFirst, notSecond]

theorem frameRead_reset (x : Slot) (o : Offset) : State.reset.frameRead x o = unlisted (flatAddr x o) := rfl

/-! Nothing is driven and nothing is buffered. -/

theorem line_reset (l : Line) : State.reset.line l = none :=
  Vector.getElem_replicate (lineIndex l).isLt

theorem rowbuf_reset (i : CellIndex) : State.reset.rowbuf[i.val] = none :=
  Vector.getElem_replicate i.isLt

theorem freeSlots_reset : State.reset.freeSlots = [2] := by decide

/-- Settles O18: the lines, the row buffer, the slots and FREE by their lemmas, the other elements as reset lists them. -/
theorem powerOnState : Obligations.PowerOnState := by
  unfold Obligations.PowerOnState
  refine ⟨line_reset, rfl, rfl, rfl, rfl, rfl, rowbuf_reset, fun o => ?_, fun o => ?_, fun o => ?_, rfl, rfl, rfl,
    freeSlots_reset, rfl, rfl, rfl⟩
  · rw [frameRead_reset, unlisted_flatAddr_zero]
  · rw [frameRead_reset, unlisted_flatAddr_one]
  · rw [frameRead_reset, unlisted_flatAddr_two]

end Sys2Proof.Machine.ResetProofs
end

section
/-! SUPPORT. Decoding and encoding are inverse to each other (30_encoding.md sections 1, 2 and 4). -/

namespace Sys2Proof.Machine.RoundTripProofs

open DecodeProofs SequencerProofs

/-- Settles O1: the fields of an operation's word are its row of the table, and a well-formed index fits the A field. -/
theorem decodeInvertsEncode : Obligations.DecodeInvertsEncode := by
  unfold Obligations.DecodeInvertsEncode
  exact fun _ h => decode_encode h

/-- An index operand that was decoded is the value of the 8-bit A field. -/
theorem wellFormed_of_decode {p : Path} {w : Word} {i : Instr} (h : decode p w = .legal i) : i.wellFormed = true := by
  have fits : (aField w).toNat < 256 := (aField w).isLt
  simp only [decode] at h
  split at h
  · contradiction
  split at h
  case h_10 => contradiction
  all_goals
    obtain ⟨_, _, rfl⟩ := accept_legal h
    simp [Instr.wellFormed, fits]

/-- Settles O2: a word that decodes agrees with its operation's row of the table, field by field. -/
theorem legalWordIsTheOperationsWord : Obligations.LegalWordIsTheOperationsWord := by
  unfold Obligations.LegalWordIsTheOperationsWord
  intro p w i h
  obtain ⟨hrow, hpath⟩ := decode_legal h
  exact ⟨encode_eq_of_matchesRow hrow, hpath, wellFormed_of_decode h⟩

/-- Settles O3: nine words, decoded. -/
theorem specWordsDecode : Obligations.SpecWordsDecode := by
  unfold Obligations.SpecWordsDecode
  decide

end Sys2Proof.Machine.RoundTripProofs
end

section
/-! SUPPORT. RX_BYTE from the engine's side (20_memory.md section 5, 41_host_port.md R141): what it reads, what it writes, and
the frames it leaves alone. -/

namespace Sys2Proof.Machine.ProducerProofs

open Machine.Laws RolesProofs HostPortProofs

/-- Two states that agree on what RX_BYTE reads. -/
structure SameProducer (s u : State) : Prop where
  mem : u.mem = s.mem
  cursor : u.cursor = s.cursor
  cur : u.cur = s.cur
  rcv : u.rcv = s.rcv
  pend : u.pend = s.pend

/-- What RX_BYTE may write: the frame store, CURSOR, PEND and RCV (10_state.md section 10). -/
def withProducer (s : State) (m : List Host.Cell) (c : Offset) (p : Option Slot) (r : Slot) : State :=
  { s with mem := m, cursor := c, pend := p, rcv := r }

/-- The slot a completion receives into next depends on CUR and RCV only. -/
theorem installPending_alloc_congr {s u : State} (cur : u.cur = s.cur) (rcv : u.rcv = s.rcv) :
    u.installPending.alloc = s.installPending.alloc := by
  have free : u.installPending.isFree = s.installPending.isFree := funext fun x =>
    Bool.eq_iff_iff.2 (by rw [installPending_isFree_iff, installPending_isFree_iff, cur, rcv])
  simp only [State.alloc, State.freeSlots, free]

/-- The slot a completion receives into next is neither the current one nor the completed one. -/
theorem ne_of_installPending_alloc {s : State} {x : Slot} (h : s.installPending.alloc = some x) : x ≠ s.cur ∧ x ≠ s.rcv :=
  (installPending_isFree_iff s x).1 (isFree_of_alloc h)

/-- RX_BYTE completes in a running state, and what it writes depends on the producer's elements only. -/
theorem exec_rxByte_local (b : Byte) (s : State) : ∃ m c p r, ∀ u : State, u.running → SameProducer s u →
    exec (.rxByte b) u = .next (withProducer u m c p r) := by
  by_cases hb : b = 0xFF#8
  · subst hb
    refine ⟨s.mem, 0, s.pend, s.rcv, fun u hu h => ?_⟩
    rw [exec_rxByte_resync hu, ← h.mem, ← h.pend, ← h.rcv]
    rfl
  by_cases hc : s.cursor.val + 1 < Config.frameBytes
  · refine ⟨memWrite s.mem (flatAddr s.rcv s.cursor) b, ⟨s.cursor.val + 1, hc⟩, s.pend, s.rcv, fun u hu h => ?_⟩
    rw [exec_rxByte_of_lt hu hb (by rw [h.cursor]; exact hc), ← h.mem, ← h.pend, ← h.rcv]
    simp only [← h.cursor]
    rfl
  · have last : s.cursor.val = 191 := by have := s.cursor.isLt; simp only [Config.frameBytes] at *; omega
    obtain ⟨x, hx, _⟩ := completeFrame_eq (s.frameWrite s.rcv s.cursor b) (encode (.rxByte b))
    refine ⟨memFill (memWrite s.mem (flatAddr s.rcv s.cursor) b) x Config.freshPattern, 0, some s.rcv, x, fun u hu h => ?_⟩
    obtain ⟨y, hy, hdone⟩ := completeFrame_eq (u.frameWrite u.rcv u.cursor b) (encode (.rxByte b))
    have hyx : some y = some x := by
      rw [← hy, ← hx]
      exact installPending_alloc_congr h.cur h.rcv
    cases hyx
    rw [exec_rxByte_of_last hu hb (by rw [h.cursor]; exact last), hdone, frameWrite_mem, h.mem, h.cursor, frameWrite_rcv,
      h.rcv]
    rfl

theorem sameProducer_refl (s : State) : SameProducer s s := ⟨rfl, rfl, rfl, rfl, rfl⟩

/-- RX_BYTE changes nothing but the producer's elements. -/
theorem eq_withProducer_of_exec {b : Byte} {s t : State} (h : exec (.rxByte b) s = .next t) :
    t = withProducer s t.mem t.cursor t.pend t.rcv := by
  obtain ⟨m, c, p, r, writes⟩ := exec_rxByte_local b s
  have hs : s.running := ((execRxByte_next b s t).1 h).1
  rw [writes s hs (sameProducer_refl s)] at h
  cases h
  rfl

theorem cur_of_exec_rxByte {b : Byte} {s t : State} (h : exec (.rxByte b) s = .next t) : t.cur = s.cur := by
  rw [eq_withProducer_of_exec h]; rfl

/-- RX_BYTE keeps the canonical form of the frame store. -/
theorem memWf_of_exec_rxByte {b : Byte} {s t : State} (hm : memWf s.mem = true) (h : exec (.rxByte b) s = .next t) :
    memWf t.mem = true := by
  have written : memWf (s.frameWrite s.rcv s.cursor b).mem = true := memWf_memWrite _ _ _ (flatAddr_lt _ _) hm
  obtain ⟨_, ⟨_, rfl⟩ | ⟨_, _, rfl⟩ | ⟨_, _, rfl⟩⟩ := (execRxByte_next b s t).1 h
  · exact hm
  · exact written
  · obtain ⟨x, _, eq⟩ := completeFrame_eq (s.frameWrite s.rcv s.cursor b) (encode (.rxByte b))
    rw [eq]
    exact memWf_memFill _ _ _ written

/-- RX_BYTE changes no byte of a slot but the one it receives into, before it or after it. -/
theorem frameRead_of_exec_rxByte {b : Byte} {s t : State} (h : exec (.rxByte b) s = .next t) {y : Slot}
    (hs : y ≠ s.rcv) (ht : y ≠ t.rcv) (o : Offset) : t.frameRead y o = s.frameRead y o := by
  have written : memRead (s.frameWrite s.rcv s.cursor b).mem (flatAddr y o) = s.frameRead y o := by
    rw [memRead_frameWrite, if_neg fun e => hs e.1]
  obtain ⟨_, ⟨_, rfl⟩ | ⟨_, _, rfl⟩ | ⟨_, _, rfl⟩⟩ := (execRxByte_next b s t).1 h
  · rfl
  · exact written
  · obtain ⟨x, _, eq⟩ := completeFrame_eq (s.frameWrite s.rcv s.cursor b) (encode (.rxByte b))
    rw [eq] at ht ⊢
    rw [State.frameRead, memRead_memFill, if_neg ht, written]

/-- RX_BYTE leaves the current frame as it is (20_memory.md section 4). -/
theorem frameRead_cur_of_exec_rxByte {b : Byte} {s t : State} (hs : s.RolesDistinct) (h : exec (.rxByte b) s = .next t)
    (o : Offset) : t.frameRead s.cur o = s.frameRead s.cur o := by
  refine frameRead_of_exec_rxByte h hs.curRcv ?_ o
  rw [← cur_of_exec_rxByte h]
  exact (rolesDistinct_execRxByte hs h).curRcv

end Sys2Proof.Machine.ProducerProofs
end

section
/-! SUPPORT. The invariant `State.Inv` (10_state.md R22, R31, R34, 70_reset_and_hazards.md R229): it holds at power-on, and
every step keeps it. -/

namespace Sys2Proof.Machine.InvariantProofs

open Machine.Laws RolesProofs ProducerProofs

/-! The lines of a ready driver at rest (40_sequencer.md R109, R110). -/

/-- The levels that `State.Resting` asks of a ready driver. -/
def RestLevels (ls : Lines) : Prop :=
  lineLevel ls .clk = some .lo ∧ lineLevel ls .lat = some .hi ∧ lineLevel ls .en = some .hi ∧
    lineLevel ls .rst = some .hi ∧ ∀ l, (lineLevel ls l).isSome = true

theorem restLevels_initSeq (ls : Lines) : RestLevels (runLines ls initSeq) := by
  simp [RestLevels, lineLevel_initSeq]

theorem restLevels_bankInitSeq {ls : Lines} (h : RestLevels ls) : RestLevels (runLines ls bankInitSeq) := by
  obtain ⟨_, _, _, rst, driven⟩ := h
  simp only [RestLevels, lineLevel_bankInitSeq]
  refine ⟨by simp, by simp, by simp, by simp [rst], fun l => ?_⟩
  split_ifs <;> simp [driven l]

theorem restLevels_sendRowSeq {ls : Lines} (h : RestLevels ls) (r : Nat) (px : Vector Byte 24) :
    RestLevels (runLines ls (sendRowSeq r px)) := by
  obtain ⟨_, _, en, rst, driven⟩ := h
  obtain ⟨a, ha⟩ := rowLine_is_row r
  obtain ⟨b, hb⟩ := prevLine_is_row r
  simp only [RestLevels, lineLevel_sendRowSeq, ha, hb]
  refine ⟨by simp, by simp, by simp [en], by simp [rst], fun l => ?_⟩
  split_ifs <;> simp [driven l]

/-! Which tasks an operation has. -/

theorem ifReady_runs {s : State} {p : Plan} {ts : List Task} :
    s.ifReady p = .runs ts ↔ s.drvReady = true ∧ p = .runs ts := by
  unfold State.ifReady
  cases s.drvReady <;> simp

/-- The tasks of each operation whose checks pass, and the readiness they found (40_sequencer.md R108). -/
inductive TasksOf (s : State) : Instr → List Task → Prop
  | init : s.drvReady = false →
      TasksOf s .init [.emit [.config configLevels], .configured, .emit initTail, .ready]
  | bankInit : s.drvReady = true → TasksOf s .bankInit [.emit bankInitSeq]
  | writeRowbuf (cell : Nat) (v : Byte) (k : CellIndex) : s.drvReady = true → TasksOf s (.writeRowbuf cell v) [.store k v]
  | loadRow (row : Nat) (r : Row) : s.drvReady = true → TasksOf s (.loadRow row) [.load r]
  | sendRow (row : Nat) (px : Vector Byte 24) : s.drvReady = true → TasksOf s (.sendRow row) [.emit (sendRowSeq row px)]
  | displayFull : s.drvReady = true → TasksOf s .displayFull ((List.finRange Config.rows).map Task.showRow)
  | arm : s.drvReady = true → TasksOf s .arm [.arm]
  | tick : s.drvReady = true → TasksOf s .tick (boundaryTasks s.nextRow ++ [.showRow s.nextRow, .advance])

theorem tasksOf_of_planOf {i : Instr} {s : State} {ts : List Task} (h : planOf i s = some (.runs ts)) : TasksOf s i ts := by
  cases i with
  | init =>
    have plan : s.planInit = .runs ts := Option.some.inj h
    unfold State.planInit at plan
    split at plan
    · contradiction
    · next hr => cases plan; exact .init (by simpa using hr)
  | bankInit =>
    obtain ⟨hr, plan⟩ := ifReady_runs.1 (Option.some.inj h)
    cases plan
    exact .bankInit hr
  | writeRowbuf cell v =>
    obtain ⟨hr, plan⟩ := ifReady_runs.1 (Option.some.inj h)
    split at plan <;> cases plan
    exact .writeRowbuf cell v _ hr
  | loadRow row =>
    obtain ⟨hr, plan⟩ := ifReady_runs.1 (Option.some.inj h)
    split at plan <;> cases plan
    exact .loadRow row _ hr
  | sendRow row =>
    obtain ⟨hr, plan⟩ := ifReady_runs.1 (Option.some.inj h)
    split at plan <;> cases plan
    exact .sendRow row _ hr
  | displayFull =>
    obtain ⟨hr, plan⟩ := ifReady_runs.1 (Option.some.inj h)
    cases plan
    exact .displayFull hr
  | arm =>
    obtain ⟨hr, plan⟩ := ifReady_runs.1 (Option.some.inj h)
    split at plan <;> cases plan
    exact .arm hr
  | tick =>
    obtain ⟨hr, plan⟩ := ifReady_runs.1 (Option.some.inj h)
    cases plan
    exact .tick hr
  | rxByte b => contradiction

/-! Where the tasks of an operation lead. -/

/-- A task of an operation that needs a ready driver. -/
def Steady : Task → Prop
  | .emit es => es = bankInitSeq ∨ ∃ r px, es = sendRowSeq r px
  | .configured => False
  | .ready => False
  | .store _ _ => True
  | .load _ => True
  | .showRow _ => True
  | .arm => True
  | .handoff => True
  | .advance => True

/-- At rest with a ready driver, as every operation but INIT finds the block and leaves it. -/
def ReadyAtRest (s : State) : Prop := s.drvReady = true ∧ s.Resting

/-- Of a ready block at rest the lines may change among rest levels, TRACE may grow, and a deadline may come if the block is
armed. -/
theorem readyAtRest_of {s t : State} (h : ReadyAtRest s) (drvReady : t.drvReady = s.drvReady)
    (lineMode : t.lineMode = s.lineMode) (armed : t.armed = t.deadline.isSome) (trace : s.trace <+: t.trace)
    (levels : RestLevels s.lines → RestLevels t.lines) : ReadyAtRest t := by
  obtain ⟨hr, hs⟩ := h
  have hrt : t.drvReady = true := drvReady.trans hr
  obtain ⟨mode, begun⟩ := hs.afterInit hr
  exact ⟨hrt,
    { armedReady := fun _ => hrt
      armedDeadline := armed
      beforeInit := fun h => by simp [hrt] at h
      afterInit := fun _ => ⟨lineMode.trans mode, begun.trans trace⟩
      restLevels := fun _ => levels (hs.restLevels hr) }⟩

theorem readyAtRest_emit {s : State} (h : ReadyAtRest s) {es : List Event}
    (levels : RestLevels s.lines → RestLevels (runLines s.lines es)) : ReadyAtRest (s.emit es) :=
  readyAtRest_of h rfl rfl h.2.armedDeadline (List.prefix_append _ _) levels

/-- Tasks that keep a ready block at rest. -/
theorem settles_of_steady {ts : List Task} (hts : ∀ k ∈ ts, Steady k) {s : State} (hs : ReadyAtRest s) :
    Settles State.Resting ts s := by
  induction ts generalizing s with
  | nil => exact hs.2
  | cons k ts ih =>
    obtain ⟨hk, hts⟩ := List.forall_mem_cons.1 hts
    replace ih := fun {s} => @ih hts s
    have deadline := hs.2.armedDeadline
    have buffered : ∀ rb, ReadyAtRest { s with rowbuf := rb } := fun rb =>
      readyAtRest_of hs rfl rfl deadline (List.prefix_refl _) id
    cases k with
    | emit es =>
      refine ih (readyAtRest_emit hs fun levels => ?_)
      obtain rfl | ⟨r, px, rfl⟩ := hk
      · exact restLevels_bankInitSeq levels
      · exact restLevels_sendRowSeq levels r px
    | configured => exact hk.elim
    | ready => exact hk.elim
    | store i v => exact ih (buffered _)
    | load r => exact fun px => ih (buffered _)
    | showRow r => exact fun px => ih (readyAtRest_emit (buffered _) fun levels => restLevels_sendRowSeq levels _ px)
    | arm => exact fun d => ih (readyAtRest_of hs rfl rfl rfl (List.prefix_refl _) id)
    | handoff => exact fun c p => ih (readyAtRest_of hs rfl rfl deadline (List.prefix_refl _) id)
    | advance =>
      refine ih (readyAtRest_of hs rfl rfl ?_ (List.prefix_refl _) id)
      simp [deadline]

/-- INIT leads an unconfigured block to its first rest (40_sequencer.md R111). -/
theorem settles_init {s : State} (hs : s.Resting) (hr : s.drvReady = false) :
    Settles State.Resting [.emit [.config configLevels], .configured, .emit initTail, .ready] s := by
  obtain ⟨_, notYet, _⟩ := hs.beforeInit hr
  have unarmed : s.armed = false := by
    cases h : s.armed
    · rfl
    · exact absurd (hs.armedReady h) (by simp [hr])
  constructor
  · intro _; rfl
  · exact hs.armedDeadline
  · intro h; exact absurd h (by simp)
  · intro _
    refine ⟨rfl, ?_⟩
    simp [notYet, initSeq_eq]
  · intro _
    show RestLevels (runLines (runLines s.lines [.config configLevels]) initTail)
    rw [← runLines_append, ← initSeq_eq]
    exact restLevels_initSeq s.lines

/-- From rest every operation leads to rest again. -/
theorem settles_of_planOf {i : Instr} {s : State} {ts : List Task} (hs : s.Resting) (h : planOf i s = some (.runs ts)) :
    Settles State.Resting ts s := by
  cases tasksOf_of_planOf h with
  | init hr => exact settles_init hs hr
  | bankInit hr => exact settles_of_steady (by simp [Steady]) ⟨hr, hs⟩
  | writeRowbuf cell v k hr => exact settles_of_steady (by simp [Steady]) ⟨hr, hs⟩
  | loadRow row r hr => exact settles_of_steady (by simp [Steady]) ⟨hr, hs⟩
  | sendRow row px hr => exact settles_of_steady (by simpa using .inr ⟨row, px, rfl⟩) ⟨hr, hs⟩
  | displayFull hr => exact settles_of_steady (by simp [Steady]) ⟨hr, hs⟩
  | arm hr => exact settles_of_steady (by simp [Steady]) ⟨hr, hs⟩
  | tick hr => exact settles_of_steady (by unfold boundaryTasks; split <;> simp [Steady]) ⟨hr, hs⟩

/-! What each part of a step keeps. -/

/-- LINES are what TRACE makes of the undriven lines, after a task as before it (10_state.md R34). -/
theorem linesFollow_perform {s : State} (h : s.lines = runLines State.reset.lines s.trace) (k : Task) :
    (s.perform k).lines = runLines State.reset.lines (s.perform k).trace := by
  cases k with
  | emit es => rw [State.perform, emit_lines, emit_trace, runLines_append, ← h]
  | showRow r => rw [State.perform, showRow_lines, showRow_trace, runLines_append, ← h]
  | handoff => rw [State.perform, handoffSchedulerSide_lines, handoffSchedulerSide_trace, h]
  | configured => exact h
  | ready => exact h
  | store i v => exact h
  | load r => exact h
  | arm => exact h
  | advance => exact h

theorem linesFollow_act {s : State} (h : s.lines = runLines State.reset.lines s.trace) :
    s.act.lines = runLines State.reset.lines s.act.trace := by
  obtain ⟨k, ts, eq⟩ := act_eq_perform s
  rw [eq]
  exact linesFollow_perform h k

/-- The invariant speaks of the roles, the frame store, what is left to do, and what `State.Resting` speaks of. -/
theorem inv_congr {s t : State} (hs : s.Inv) (same : Same s t) (todo : t.todo = s.todo) (roles : t.RolesDistinct)
    (memory : memWf t.mem = true) : t.Inv where
  roles := roles
  memory := memory
  linesFollow := by rw [same.lines, same.trace]; exact hs.linesFollow
  rest := by rw [todo]; exact settles_congr s.todo s t same hs.rest

theorem inv_act {s : State} (hs : s.Inv) : s.act.Inv where
  roles := rolesDistinct_act hs.roles
  memory := by rw [act_mem]; exact hs.memory
  linesFollow := linesFollow_act hs.linesFollow
  rest := settles_act s hs.rest

theorem inv_start {i : Instr} {s : State} {ts : List Task} (hs : s.Inv) (idle : s.todo = [])
    (h : planOf i s = some (.runs ts)) : State.Inv { s with todo := ts } where
  roles := rolesDistinct_congr hs.roles rfl rfl rfl
  memory := hs.memory
  linesFollow := hs.linesFollow
  rest := by
    have resting : s.Resting := by have rest := hs.rest; rwa [idle] at rest
    exact settles_congr ts s _ (by constructor <;> rfl) (settles_of_planOf resting h)

theorem inv_execRxByte {b : Byte} {s t : State} (hs : s.Inv) (h : exec (.rxByte b) s = .next t) : t.Inv := by
  have frame := eq_withProducer_of_exec h
  exact inv_congr hs (by rw [frame]; constructor <;> rfl) (by rw [frame]; rfl) (rolesDistinct_execRxByte hs.roles h)
    (memWf_of_exec_rxByte hs.memory h)

/-- Settles O20: `step_keeps` for the invariant. The engine's part is that an operation started at rest settles, and that an
action keeps where the running operation leads. -/
theorem everyStepKeepsTheInvariant : Obligations.EveryStepKeepsTheInvariant := by
  unfold Obligations.EveryStepKeepsTheInvariant
  exact step_keeps State.Inv
    (pass := fun _ hs => inv_congr hs (by constructor <;> rfl) rfl (rolesDistinct_congr hs.roles rfl rfl rfl) hs.memory)
    (arrive := fun s x hs => inv_congr hs (by constructor <;> simp) (deliver_todo s x)
      (rolesDistinct_congr hs.roles (deliver_cur s x) (deliver_rcv s x) (deliver_pend s x))
      (by rw [deliver_mem]; exact hs.memory))
    (take := fun _ _ _ hs =>
      inv_congr hs (by constructor <;> rfl) rfl (rolesDistinct_congr hs.roles rfl rfl rfl) hs.memory)
    (start := fun _ _ _ hs idle h => inv_start hs idle h)
    (act := fun _ hs => inv_act hs)
    (fault := fun _ _ _ hs =>
      inv_congr hs (by constructor <;> rfl) rfl (rolesDistinct_congr hs.roles rfl rfl rfl) hs.memory)
    (byte := fun _ _ _ hs h => inv_execRxByte hs h)

/-- Settles O19: at power-on nothing runs, nothing is armed and nothing has been emitted. -/
theorem powerOnMeetsTheInvariant : Obligations.PowerOnMeetsTheInvariant := by
  unfold Obligations.PowerOnMeetsTheInvariant
  exact
    { roles := ⟨by decide, by decide⟩
      memory := memWf_reset
      linesFollow := rfl
      rest :=
        { armedReady := by decide
          armedDeadline := rfl
          beforeInit := fun _ => ⟨rfl, rfl, rfl⟩
          afterInit := fun h => absurd h (by decide)
          restLevels := fun h => absurd h (by decide) } }

end Sys2Proof.Machine.InvariantProofs
end

section
/-! SUPPORT. What an operation of the display engine does to TRACE and to the time, and that cutting it into actions changes
nothing in what it leaves (10_state.md section 10, 20_memory.md section 5). -/

namespace Sys2Proof.Machine.EngineProofs

open Machine.Laws RolesProofs ProducerProofs

/-- An operation whose checks pass leaves what its tasks leave. -/
theorem exec_of_planOf_runs {i : Instr} {s : State} {ts : List Task} (hs : s.running)
    (h : planOf i s = some (.runs ts)) : exec i s = .next (s.performAll ts) := by
  rw [exec_planOf i s _ h]
  exact (execute_next s _ _ _).2 ⟨hs, .inr ⟨ts, rfl, rfl⟩⟩

/-! TRACE only grows (10_state.md R34). -/

theorem trace_prefix_perform (s : State) (k : Task) : s.trace <+: (s.perform k).trace := by
  cases k with
  | emit es => exact List.prefix_append _ _
  | showRow r => rw [State.perform, showRow_trace]; exact List.prefix_append _ _
  | handoff => rw [State.perform, handoffSchedulerSide_trace]
  | _ => exact List.prefix_refl _

theorem trace_prefix_performAll (s : State) (ts : List Task) : s.trace <+: (s.performAll ts).trace := by
  induction ts generalizing s with
  | nil => exact List.prefix_refl _
  | cons k ts ih => exact (trace_prefix_perform s k).trans (ih (s.perform k))

theorem trace_prefix_finish (s : State) : s.trace <+: s.finish.trace := trace_prefix_performAll s s.todo

/-- Settles O9: the actions of an operation, as many as its tasks have, leave what the tasks leave, and what is left to do
after some of them only adds to TRACE. -/
theorem suspensionChangesNoOutcome : Obligations.SuspensionChangesNoOutcome := by
  unfold Obligations.SuspensionChangesNoOutcome
  intro i s ts hs idle hp
  have whole := finish_start s ts idle
  refine ⟨s.performAll ts, actionsOfAll ts, exec_of_planOf_runs hs hp, fun k hk => ?_, fun k => ?_⟩
  · rw [acts_finish k _ hk, whole]
  · rw [← whole, ← finish_acts k]
    exact trace_prefix_finish _

/-! The time only goes on (42_row_scan.md section 2). -/

theorem notAfter_add (t d : Time) : t.notAfter (t.add d) := le_add_of_nonneg_right d.nonneg

theorem now_perform (s : State) (k : Task) : s.now.notAfter (s.perform k).now := by
  cases k with
  | emit es => exact notAfter_add _ _
  | showRow r => rw [State.perform, showRow_now]; exact notAfter_add _ _
  | handoff => rw [State.perform, handoffSchedulerSide_now]
  | _ => exact le_refl _

theorem now_act (s : State) : s.now.notAfter s.act.now := by
  obtain ⟨k, ts, eq⟩ := act_eq_perform s
  rw [eq]
  exact now_perform s k

theorem now_of_exec_rxByte {b : Byte} {s t : State} (h : exec (.rxByte b) s = .next t) : t.now = s.now := by
  rw [eq_withProducer_of_exec h]; rfl

/-- Settles O17: of all that a step is made of, only the events of an operation and the passing of time move the time. -/
theorem timeNeverGoesBack : Obligations.TimeNeverGoesBack := by
  unfold Obligations.TimeNeverGoesBack
  intro s t
  exact step_keeps (fun u => s.now.secs ≤ u.now.secs)
    (pass := fun u hu => hu.trans (notAfter_add u.now _))
    (arrive := fun u x hu => by rw [deliver_now]; exact hu)
    (take := fun _ _ _ hu => hu)
    (start := fun _ _ _ hu _ _ => hu)
    (act := fun u hu => hu.trans (now_act u))
    (fault := fun _ _ _ hu => hu)
    (byte := fun _ u v hu h => by rw [now_of_exec_rxByte (s := u) (t := v) h]; exact hu)
    s t (le_refl s.now.secs)

end Sys2Proof.Machine.EngineProofs
end

section
/-! SUPPORT. One step of the machine: which word is taken, and what taking it does (42_row_scan.md section 2, 60_exceptions.md
sections 2 and 3; log 1, log 6, log 7, log 8). -/

namespace Sys2Proof.Machine.StepProofs

open Machine.Laws ExceptionProofs DecodeProofs EngineProofs

/-! Which word is taken. -/

theorem fetch_of_byte {s : State} {w : Word} {rest : List Word} (h : s.bytePort = w :: rest) :
    s.fetch = some (.byte, w, { s with bytePort := rest }) := by
  simp [State.fetch, State.fetchByte, h]

theorem fetch_inside {s : State} (hb : s.bytePort = []) (ht : s.todo ≠ []) : s.fetch = none := by
  simp [State.fetch, State.fetchByte, State.engineIdle, hb, ht]

theorem fetch_between {s : State} (hb : s.bytePort = []) (ht : s.todo = []) : s.fetch = s.fetchEngine := by
  simp [State.fetch, State.fetchByte, State.engineIdle, hb, ht]

theorem tickDue_iff (s : State) :
    s.tickDue = true ↔ s.armed = true ∧ ∃ d, s.deadline = some d ∧ d.secs ≤ s.now.secs := by
  unfold State.tickDue
  cases s.deadline <;> simp

theorem fetchTick_of_due {s : State} (h : s.tickDue = true) : s.fetchTick = some (.timer, encode .tick, s) := if_pos h

theorem fetchTick_of_not_due {s : State} (h : s.tickDue = false) : s.fetchTick = none := if_neg (by simp [h])

theorem fetchCommand_cons {s : State} {w : Word} {rest : List Word} (h : s.cmdPort = w :: rest) :
    s.fetchCommand = some (.cmd, w, { s with cmdPort := rest }) := by
  simp [State.fetchCommand, h]

theorem fetchCommand_nil {s : State} (h : s.cmdPort = []) : s.fetchCommand = none := by
  simp [State.fetchCommand, h]

/-- A due tick is taken on its turn, and on the command's if no command waits. -/
theorem fetch_of_tick {s : State} (hb : s.bytePort = []) (ht : s.todo = []) (hd : s.tickDue = true)
    (hturn : s.turn = .tick ∨ s.cmdPort = []) : s.fetch = some (.timer, encode .tick, s) := by
  rw [fetch_between hb ht, State.fetchEngine, fetchTick_of_due hd]
  cases hs : s.turn with
  | tick => rfl
  | command =>
    rw [fetchCommand_nil (hturn.resolve_left (by simp [hs]))]
    rfl

/-- A waiting command is taken on its turn, and on the tick's if no tick is due. -/
theorem fetch_of_command {s : State} {w : Word} {rest : List Word} (hb : s.bytePort = []) (ht : s.todo = [])
    (hc : s.cmdPort = w :: rest) (hturn : s.turn = .command ∨ s.tickDue = false) :
    s.fetch = some (.cmd, w, { s with cmdPort := rest }) := by
  rw [fetch_between hb ht, State.fetchEngine, fetchCommand_cons hc]
  cases hs : s.turn with
  | command => rfl
  | tick =>
    rw [fetchTick_of_not_due (hturn.resolve_left (by simp [hs]))]
    rfl

/-- Settles O14: the byte port is looked at first, and inside an operation nothing else is. -/
theorem waitingByteIsTakenFirst : Obligations.WaitingByteIsTakenFirst := by
  unfold Obligations.WaitingByteIsTakenFirst
  exact fun s => ⟨fun _ _ h => fetch_of_byte h, fetch_inside⟩

/-- Settles O15: the timer presents its word only when a tick is due, and the turn orders the tick and the command. -/
theorem tickIsTakenOnlyWhenDue : Obligations.TickIsTakenOnlyWhenDue := by
  unfold Obligations.TickIsTakenOnlyWhenDue
  refine ⟨fun s s' w h => ?_, fun s d ha hd hnow hb ht hturn => ?_, fun s w rest hb ht hc hturn => ?_⟩
  · obtain ⟨hp, _⟩ | ⟨_, _, ht, hdue, hw, hs⟩ | ⟨hp, _⟩ := fetch_cases s s' .timer w h
    · contradiction
    · exact ⟨hs, hw, ht, (tickDue_iff s).1 hdue⟩
    · contradiction
  · exact fetch_of_tick hb ht ((tickDue_iff s).2 ⟨ha, d, hd, hnow⟩) hturn
  · exact fetch_of_command hb ht hc hturn

/-! What a step does, by who moves. -/

theorem step_of_input {s : State} {x : Input} (hs : s.running) (hx : s.input = some x) :
    step s = .next (s.deliver x).passTime := by
  rw [step, whenRunning_running s _ hs, hx]
  rfl

theorem step_of_fetch {s s' : State} {p : Path} {w : Word} (hs : s.running) (hx : s.input = none)
    (hf : s.fetch = some (p, w, s')) : step s = thenPassTime (s'.takeWord p w) := by
  rw [step, whenRunning_running s _ hs, hx, hf]

theorem step_of_fetch_none {s : State} (hs : s.running) (hx : s.input = none) (hf : s.fetch = none) :
    step s = .next s.resume.passTime := by
  rw [step, whenRunning_running s _ hs, hx, hf]
  rfl

theorem running_of_fetch {s s' : State} {p : Path} {w : Word} (hs : s.running) (hf : s.fetch = some (p, w, s')) :
    s'.running := by
  obtain ⟨bytes, cmds, rfl⟩ := fetch_frame s s' p w hf
  exact hs

theorem breakAfter_of_fetch {s s' : State} {p : Path} {w : Word} (hf : s.fetch = some (p, w, s')) :
    s'.breakAfter = s.breakAfter := by
  obtain ⟨bytes, cmds, rfl⟩ := fetch_frame s s' p w hf
  rfl

/-- An operation that is not suspended, or a received byte, runs whole. -/
theorem takeWord_whole {s : State} {p : Path} {w : Word} {i : Instr} (hd : decode p w = .legal i)
    (h : s.breakAfter = none ∨ ∃ b, i = .rxByte b) : s.takeWord p w = exec i s := by
  cases hb : s.breakAfter with
  | none => simp [State.takeWord, hb, runWord, hd]
  | some n =>
    obtain ⟨b, rfl⟩ := h.resolve_left (by simp [hb])
    simp [State.takeWord, hb, hd, runPart, planOf]

theorem takeWord_suspended {s : State} {p : Path} {w : Word} {i : Instr} {n : Nat} {ts : List Task} (hs : s.running)
    (hd : decode p w = .legal i) (hb : s.breakAfter = some n) (hp : planOf i s = some (.runs ts)) :
    s.takeWord p w = .next (State.acts n { s with todo := ts }) := by
  simp [State.takeWord, hb, hd, runPart, hp, whenRunning_running s _ hs]

/-- A suspension changes nothing for an operation whose checks fail. -/
theorem takeWord_raises {s : State} {p : Path} {w : Word} {i : Instr} {n : Nat} {c : FaultCode} (hs : s.running)
    (hd : decode p w = .legal i) (hb : s.breakAfter = some n) (hp : planOf i s = some (.raises c)) :
    s.takeWord p w = .next (s.raise c (encode i)) := by
  simp [State.takeWord, hb, hd, runPart, hp, exec_of_planOf_raises hs hp]

theorem takeWord_illegal {s : State} {p : Path} {w : Word} {why : IllegalReason} (hs : s.running)
    (hd : decode p w = .illegal why) : s.takeWord p w = .next (s.raise .illegalCmd w) := by
  cases hb : s.breakAfter <;> simp [State.takeWord, hb, runWord, hd, takeIllegal, whenRunning_running s _ hs]

/-- Settles O6: the taken word's operation runs whole on the state without the word, and then time passes. -/
theorem stepRunsTheDecodedOperation : Obligations.StepRunsTheDecodedOperation := by
  unfold Obligations.StepRunsTheDecodedOperation
  intro s s' p w i hs hx hf hd hwhole
  rw [← breakAfter_of_fetch hf] at hwhole
  rw [step_of_fetch hs hx hf, takeWord_whole hd hwhole]
  cases exec i s' <;> rfl

/-- Settles O7: the two answers of the checks of an operation that is suspended. -/
theorem operationMayBeSuspended : Obligations.OperationMayBeSuspended := by
  unfold Obligations.OperationMayBeSuspended
  intro s s' p w i n hs hx hf hd hb
  have hs' := running_of_fetch hs hf
  have hb' := (breakAfter_of_fetch hf).trans hb
  refine ⟨fun ts hp => ?_, fun c hp => ?_⟩
  · rw [step_of_fetch hs hx hf, takeWord_suspended hs' hd hb' hp]
    rfl
  · rw [step_of_fetch hs hx hf, takeWord_raises hs' hd hb' hp]
    rfl

/-- Settles O8: inside an operation nothing but a byte is taken, so the operation goes on. -/
theorem suspendedOperationGoesOn : Obligations.SuspendedOperationGoesOn := by
  unfold Obligations.SuspendedOperationGoesOn
  intro s hs hx hb ht
  have goesOn := step_of_fetch_none hs hx (fetch_inside hb ht)
  refine ⟨fun h => ?_, fun n h => ?_⟩
  · rw [goesOn, State.resume, h]
    rfl
  · rw [goesOn, State.resume, h]

/-- Settles O10: an illegal word raises ILLEGAL_CMD, and then time passes. -/
theorem stepTakesAnIllegalWord : Obligations.StepTakesAnIllegalWord := by
  unfold Obligations.StepTakesAnIllegalWord
  intro s s' p w why hs hx hf hd
  rw [step_of_fetch hs hx hf, takeWord_illegal (running_of_fetch hs hf) hd]
  rfl

/-- Settles O11: the byte is taken first, its fault changes neither TRACE nor what is left to do, and FAULT stops the block. -/
theorem illegalByteStopsAnOperation : Obligations.IllegalByteStopsAnOperation := by
  unfold Obligations.IllegalByteStopsAnOperation
  intro s w rest why hs hx hb hd
  refine ⟨(State.raise { s with bytePort := rest } .illegalCmd w).passTime, ?_, rfl, rfl, rfl, rfl, whenRunning_halted rfl _⟩
  exact stepTakesAnIllegalWord s _ .byte w why hs hx (fetch_of_byte hb) hd

/-- Settles O12: with no operation running, going on is doing nothing. -/
theorem idleStepKeepsTheBlock : Obligations.IdleStepKeepsTheBlock := by
  unfold Obligations.IdleStepKeepsTheBlock
  intro s hs hx hf ht
  have idle : s.resume = s := by
    obtain ⟨n, hn⟩ := resume_acts s
    rw [hn, acts_idle n s ht]
  have passes : step s = .next s.passTime := by rw [step_of_fetch_none hs hx hf, idle]
  exact ⟨s.passTime.now, s.passTime.input, s.passTime.breakAfter, s.passTime.turn, s.passTime.moment, passes,
    notAfter_add _ _⟩

/-- Settles O13: the environment's step delivers its word. -/
theorem hostInputsReachThePorts : Obligations.HostInputsReachThePorts := by
  unfold Obligations.HostInputsReachThePorts
  exact fun s w hs => ⟨step_of_input hs, step_of_input hs⟩

/-! The placed word (log 1). -/

/-- The state in which a placed word runs: nothing of the environment's is left that goes before it, and for TICK the timer
is due. -/
def placedState (s : State) (w : Word) : State :=
  match naturalPath w with
  | .byte => { s with input := none }
  | .cmd => { s with input := none, bytePort := [], todo := [], breakAfter := none, turn := .command }
  | .timer => s.present w

theorem eq_encode_tick_of_naturalPath {w : Word} (h : naturalPath w = .timer) : w = encode .tick := by
  unfold naturalPath at h
  split at h
  · assumption
  · split at h <;> contradiction

theorem present_fetch (s : State) (w : Word) : (s.present w).fetch = some (naturalPath w, w, placedState s w) := by
  cases h : naturalPath w with
  | byte =>
    simp only [placedState, State.present, h]
    exact fetch_of_byte rfl
  | cmd =>
    simp only [placedState, State.present, h]
    exact fetch_of_command rfl rfl rfl (.inl rfl)
  | timer =>
    obtain rfl := eq_encode_tick_of_naturalPath h
    simp only [placedState, State.present, h]
    exact fetch_of_tick rfl rfl ((tickDue_iff _).2 ⟨rfl, s.now, rfl, le_refl _⟩) (.inl rfl)

theorem present_input (s : State) (w : Word) : (s.present w).input = none := by
  unfold State.present; split <;> rfl

theorem present_running {s : State} (hs : s.running) (w : Word) : (s.present w).running := by
  unfold State.present; split <;> exact hs

/-- A placed word that decodes runs whole: only RX_BYTE keeps a suspension, which does not touch it. -/
theorem step_present {s : State} {w : Word} {i : Instr} (hs : s.running) (hd : decode (naturalPath w) w = .legal i) :
    step (s.present w) = thenPassTime (exec i (placedState s w)) := by
  have hwhole : (placedState s w).breakAfter = none ∨ ∃ b, i = .rxByte b := by
    cases h : naturalPath w with
    | byte => exact .inr (eq_rxByte_of_issuePath ((decode_legal hd).2.trans h))
    | cmd => left; simp only [placedState, h]
    | timer => left; simp only [placedState, State.present, h]
  rw [step_of_fetch (present_running hs w) (present_input s w) (present_fetch s w), takeWord_whole hd hwhole]

theorem decode_of_decodeTableWord {w : Nat} {i : Instr} (h : decodeTableWord 32 w = some i) :
    decode (naturalPath (tableWord 32 w)) (tableWord 32 w) = .legal i := by
  unfold decodeTableWord at h
  split at h
  · cases hd : decode (naturalPath (tableWord 32 w)) (tableWord 32 w) with
    | legal j => rw [hd] at h; rw [Option.some.inj h]
    | illegal why => rw [hd] at h; contradiction
  · contradiction

/-- Settles O16: a placed word is taken next on its own path, and what was put away for it is the environment's, the position,
and the timer for TICK. -/
theorem placedWordRunsNext : Obligations.PlacedWordRunsNext := by
  unfold Obligations.PlacedWordRunsNext
  intro s w i hs h
  have hd := decode_of_decodeTableWord h
  refine ⟨placedState s (tableWord 32 w), step_present hs hd, ?_, fun hi => ?_⟩
  · unfold placedState State.present
    cases naturalPath (tableWord 32 w) <;> rfl
  · cases hp : naturalPath (tableWord 32 w) with
    | timer => exact absurd (eq_tick_of_issuePath ((decode_legal hd).2.trans hp)) hi
    | byte => simp [placedState, hp]
    | cmd => simp [placedState, hp]

end Sys2Proof.Machine.StepProofs
end

section
/-! SUPPORT. What each operation may write (10_state.md section 10), and which fault it raises (60_exceptions.md section 1). -/

namespace Sys2Proof.Machine.EffectProofs

open Machine.Laws RolesProofs DecodeProofs HostPortProofs ExceptionProofs ProducerProofs EngineProofs

/-! Writers. -/

/-- Settles O22: for each operation, each state it can answer differs from the one before in what it may write only. -/
theorem elementsHaveOnlyTheirWriters : Obligations.ElementsHaveOnlyTheirWriters := by
  unfold Obligations.ElementsHaveOnlyTheirWriters
  intro i s t h
  cases i with
  | init => obtain ⟨_, ⟨_, rfl⟩ | ⟨_, rfl⟩⟩ := (execInit_next s t).1 h <;> simp
  | bankInit => obtain ⟨_, ⟨_, rfl⟩ | ⟨_, rfl⟩⟩ := (execBankInit_next s t).1 h <;> simp
  | writeRowbuf cell v =>
    obtain ⟨_, ⟨_, _, _, rfl⟩ | ⟨_, _, rfl⟩ | ⟨_, rfl⟩⟩ := (execWriteRowbuf_next cell v s t).1 h <;> simp
  | loadRow row =>
    obtain ⟨_, ⟨_, _, _, rfl⟩ | ⟨_, _, rfl⟩ | ⟨_, rfl⟩⟩ := (execLoadRow_next row s t).1 h <;> simp
  | sendRow row =>
    obtain ⟨_, ⟨_, _, _, rfl⟩ | ⟨_, _, rfl⟩ | ⟨_, rfl⟩⟩ := (execSendRow_next row s t).1 h <;> simp
  | displayFull =>
    obtain ⟨_, ⟨_, rfl⟩ | ⟨_, rfl⟩⟩ := (execDisplayFull_next s t).1 h
    · obtain ⟨rb, eq, _⟩ := fold_showRow (List.finRange Config.rows) s
      rw [eq]
      simp
    · simp
  | arm => obtain ⟨_, ⟨_, _, rfl⟩ | ⟨_, _, rfl⟩ | ⟨_, rfl⟩⟩ := (execArm_next s t).1 h <;> simp
  | tick => obtain ⟨_, ⟨_, rfl⟩ | ⟨_, rfl⟩⟩ := (execTick_next s t).1 h <;> simp
  | rxByte b =>
    rw [eq_withProducer_of_exec h]
    simp [withProducer]

/-! Faults. -/

/-- Settles O24: an operation that leaves FAULT set has done nothing but raise it. -/
theorem faultingOperationWritesOnlyFault : Obligations.FaultingOperationWritesOnlyFault := by
  unfold Obligations.FaultingOperationWritesOnlyFault
  intro i s t h hf
  obtain ⟨c, _, eq⟩ := eq_raise_of_exec_fault h hf
  exact ⟨c, eq⟩

/-- The fault that the checks of an operation give, if any. -/
def planFault : Plan → Option FaultCode
  | .raises c => some c
  | .runs _ => none

theorem planFault_ifReady (s : State) (p : Plan) :
    planFault (s.ifReady p) = if s.drvReady then planFault p else some .notReady := by
  unfold State.ifReady
  split <;> rfl

theorem rowbufBytes?_none_iff_contains (s : State) : s.rowbufBytes? = none ↔ s.rowbuf.toList.contains none = true := by
  rw [rowbufBytes?_none, List.contains_iff_mem, Vector.mem_toList_iff, Vector.mem_iff_getElem]
  exact ⟨fun ⟨i, hi⟩ => ⟨i.val, i.isLt, hi⟩, fun ⟨i, hlt, hi⟩ => ⟨⟨i, hlt⟩, hi⟩⟩

/-- The checks of each operation come in the order of 60_exceptions.md R193. -/
theorem faultOf_eq_planFault {i : Instr} {s : State} {p : Plan} (h : planOf i s = some p) : faultOf i s = planFault p := by
  cases i with
  | init =>
    obtain rfl := Option.some.inj h
    simp only [faultOf, State.planInit]
    split <;> rfl
  | bankInit =>
    obtain rfl := Option.some.inj h
    rw [State.planBankInit, planFault_ifReady]
    rfl
  | writeRowbuf cell v =>
    obtain rfl := Option.some.inj h
    rw [State.planWriteRowbuf, planFault_ifReady, faultOf]
    by_cases hc : cell < 24
    · rw [cellOf?_some cell hc, if_pos hc]; rfl
    · rw [cellOf?_none cell hc, if_neg hc]; rfl
  | loadRow row =>
    obtain rfl := Option.some.inj h
    rw [State.planLoadRow, planFault_ifReady, faultOf]
    by_cases hrow : 1 ≤ row ∧ row ≤ 8
    · rw [rowOf?_some row hrow, if_pos hrow]; rfl
    · rw [rowOf?_none row hrow, if_neg hrow]; rfl
  | sendRow row =>
    obtain rfl := Option.some.inj h
    rw [State.planSendRow, planFault_ifReady]
    have unwritten := rowbufBytes?_none_iff_contains s
    cases hpx : s.rowbufBytes? with
    | none => simp only [faultOf, unwritten.1 hpx, if_true, planFault]
    | some px =>
      have written : ¬ s.rowbuf.toList.contains none = true := by rw [← unwritten, hpx]; simp
      simp only [faultOf, if_neg written, planFault]
  | displayFull =>
    obtain rfl := Option.some.inj h
    rw [State.planDisplayFull, planFault_ifReady]
    rfl
  | arm =>
    obtain rfl := Option.some.inj h
    rw [State.planArm, planFault_ifReady, faultOf]
    split
    · split <;> rfl
    · rfl
  | tick =>
    obtain rfl := Option.some.inj h
    rw [State.planTick, planFault_ifReady]
    rfl
  | rxByte b => contradiction

/-- RX_BYTE completes in every running state. -/
theorem exists_exec_rxByte (b : Byte) {s : State} (hs : s.running) : ∃ t, exec (.rxByte b) s = .next t := by
  obtain ⟨m, c, p, r, writes⟩ := exec_rxByte_local b s
  exact ⟨_, writes s hs (sameProducer_refl s)⟩

/-- Settles O25: an operation's plan raises its first fault, and a received byte and a plan's tasks raise none. -/
theorem firstApplicableFaultIsRaised : Obligations.FirstApplicableFaultIsRaised := by
  unfold Obligations.FirstApplicableFaultIsRaised
  refine ⟨fun i s hs => ?_, fun p w why s hs hd => runWord_of_not_legal hs (by simp [hd])⟩
  obtain ⟨b, rfl⟩ | ⟨p, hp⟩ := eq_rxByte_or_exists_planOf i s
  · obtain ⟨t, ht⟩ := exists_exec_rxByte b hs
    exact ⟨t, ht, fault_eq_none_of_execRxByte ht⟩
  · rw [faultOf_eq_planFault hp]
    cases p with
    | raises c => exact ⟨_, exec_of_planOf_raises hs hp, rfl⟩
    | runs ts => exact ⟨_, exec_of_planOf_runs hs hp, (performAll_fault s ts).trans hs⟩

/-- Settles O27: with the completed slot pending, the free slots are those that are neither it nor the current one, and there
is one. -/
theorem completionAlwaysFindsAFreeSlot : Obligations.CompletionAlwaysFindsAFreeSlot := by
  unfold Obligations.CompletionAlwaysFindsAFreeSlot
  intro s
  obtain ⟨x, hx, free, lowest⟩ | ⟨full, _⟩ := alloc_cases s.installPending
  · obtain ⟨xCur, xRcv⟩ := (installPending_isFree_iff s x).1 free
    exact ⟨x, hx, xCur, xRcv, fun y yCur yRcv => lowest y ((installPending_isFree_iff s y).2 ⟨yCur, yRcv⟩)⟩
  · exact absurd full (installPending_alloc_ne_none s)

end Sys2Proof.Machine.EffectProofs
end

section
/-! SUPPORT. The lines during and after a row send (40_sequencer.md section 2, 95_test_vectors.md section 2.2): levels, clocked
bits, lit rows, and the order of bank initialization and row data. -/

namespace Sys2Proof.Machine.LineProofs

open Machine.Laws SequencerProofs

/-- Settles O33: ROWBUF is written, so SEND_ROW emits the row send, and the last Set of each line gives its level. -/
theorem rowSendLeavesTheseLevels : Obligations.RowSendLeavesTheseLevels := by
  unfold Obligations.RowSendLeavesTheseLevels
  intro r px s hs hr hpx
  exact ⟨_, PseudoProofs.exec_sendRow hs hr r ((rowbufBytes?_some s px).2 hpx), lineLevel_sendRowSeq s.lines r px⟩

/-! The waveform of a clocked bit (40_sequencer.md R103). -/

/-- Setting a line to the level it has changes nothing. -/
theorem applyEvent_set_same {ls : Lines} {l : Line} {lv : Level} (h : lineLevel ls l = some lv) :
    applyEvent ls (.set l lv) = ls := by
  refine lines_ext _ _ fun l' => ?_
  rw [applyEvent, lineLevel_set]
  split
  · next heq => rw [← heq, h]
  · rfl

theorem waveform_cons_of_same {ls : Lines} {e : Event} (h : applyEvent ls e = ls) (es : List Event) :
    waveform ls (e :: es) = waveform ls es := by
  rw [waveform, if_pos h]

/-- After the same first event the waveforms agree if the rests do. -/
theorem waveform_cons_congr {ls : Lines} {e : Event} {a b : List Event}
    (h : waveform (applyEvent ls e) a = waveform (applyEvent ls e) b) : waveform ls (e :: a) = waveform ls (e :: b) := by
  rw [waveform, waveform]
  split
  · next same => rwa [same] at h
  · rw [h]

/-- Settles O38: with CLK low the Set that drives it low again changes no level. -/
theorem clockPulseFormsGiveOneWaveform : Obligations.ClockPulseFormsGiveOneWaveform := by
  unfold Obligations.ClockPulseFormsGiveOneWaveform
  intro ls v hclk
  refine waveform_cons_congr ?_
  have low : lineLevel (applyEvent ls (.set .sda (levelOf v))) .clk = some .lo := by
    rw [applyEvent, lineLevel_set, if_neg (by decide), hclk]
  exact (waveform_cons_of_same (applyEvent_set_same low) _).symm

/-! The clocked bits of a row send (95_test_vectors.md V20). -/

theorem clockedBits_append (ls : Lines) (a b : List Event) :
    clockedBits ls (a ++ b) = clockedBits ls a ++ clockedBits (runLines ls a) b := by
  induction a generalizing ls with
  | nil => rfl
  | cons e a ih =>
    rw [List.cons_append, clockedBits, clockedBits, ih, runLines_cons]
    split <;> rfl

/-- Only a rising clock event clocks a bit. -/
theorem clockedBits_of_not_mem {es : List Event} (h : Event.set .clk .hi ∉ es) (ls : Lines) : clockedBits ls es = [] := by
  induction es generalizing ls with
  | nil => rfl
  | cons e es ih =>
    rw [List.mem_cons, not_or] at h
    rw [clockedBits, if_neg fun eq => h.1 eq.symm, ih h.2]

theorem clockedBits_shiftBit (ls : Lines) (v : Bool) : clockedBits ls (shiftBit v) = [some (levelOf v)] := by
  simp [shiftBit, clockedBits, applyEvent, lineLevel_set]

theorem clockedBits_shiftBits (ls : Lines) (vs : List Bool) :
    clockedBits ls (vs.flatMap shiftBit) = vs.map fun v => some (levelOf v) := by
  induction vs generalizing ls with
  | nil => rfl
  | cons v vs ih => rw [List.flatMap_cons, clockedBits_append, clockedBits_shiftBit, ih]; rfl

/-- The levels of the bits of a byte, as they are clocked out. -/
def byteLevels (x : Byte) : List (Option Level) := (byteBits x).map fun v => some (levelOf v)

theorem clockedBits_shiftBytes (ls : Lines) (bs : List Byte) :
    clockedBits ls (bs.flatMap shiftByte) = bs.flatMap byteLevels := by
  induction bs generalizing ls with
  | nil => rfl
  | cons b bs ih => rw [List.flatMap_cons, clockedBits_append, shiftByte, clockedBits_shiftBits, ih]; rfl

/-- The bytes of a row send are the gamma-corrected cells from the last to the first (20_memory.md R56). -/
theorem sentBytes_eq_map (px : Vector Byte 24) :
    sentBytes px = (List.finRange 24).reverse.map fun i => Config.gamma (channelOf i.val) px[i.val] := rfl

theorem clockedBits_sendRowSeq (r : Nat) (px : Vector Byte 24) (ls : Lines) :
    clockedBits ls (sendRowSeq r px) = (sentBytes px).flatMap byteLevels := by
  obtain ⟨a, ha⟩ := rowLine_is_row r
  obtain ⟨b, hb⟩ := prevLine_is_row r
  have ends : Event.set .clk .hi ∉ ([.set .lat .lo, .set .lat .hi, .set (rowLine r) .hi] : List Event) := by simp [ha]
  have blanking : Event.set .clk .hi ∉ [Event.set (prevLine r) .lo] := by simp [hb]
  rw [sendRowSeq_eq_blanking, List.append_cons, ← List.append_assoc, clockedBits_append, clockedBits_of_not_mem ends,
    clockedBits_append, clockedBits_append, clockedBits_of_not_mem blanking, beforeBlanking, afterBlanking,
    clockedBits_shiftBytes, clockedBits_shiftBytes, List.append_nil, List.append_nil, ← List.flatMap_append,
    List.take_append_drop]

/-- Settles O35: the blanking, the latch pulse and the assert clock no bit, so the bits are those of the sent bytes. -/
theorem clockedBitsAreTheGammaBytes : Obligations.ClockedBitsAreTheGammaBytes := by
  unfold Obligations.ClockedBitsAreTheGammaBytes
  intro r px ls
  rw [clockedBits_sendRowSeq, sentBytes_eq_map, List.flatMap_map]
  rfl

/-! Events that leave a line alone. -/

/-- Set events of other lines. -/
def Avoids (l : Line) (es : List Event) : Prop := ∀ e ∈ es, ∃ l' lv, e = .set l' lv ∧ l' ≠ l

theorem lineLevel_of_avoids {l : Line} {es : List Event} (h : Avoids l es) (ls : Lines) :
    lineLevel (runLines ls es) l = lineLevel ls l := by
  induction es generalizing ls with
  | nil => rfl
  | cons e es ih =>
    obtain ⟨⟨l', lv, rfl, hl⟩, hes⟩ := List.forall_mem_cons.1 h
    rw [runLines_cons, ih hes, applyEvent, lineLevel_set, if_neg hl]

theorem avoids_append {l : Line} {a b : List Event} (ha : Avoids l a) (hb : Avoids l b) : Avoids l (a ++ b) :=
  List.forall_mem_append.2 ⟨ha, hb⟩

theorem avoids_take {l : Line} {es : List Event} (h : Avoids l es) (k : Nat) : Avoids l (es.take k) :=
  fun e he => h e (List.mem_of_mem_take he)

theorem avoids_flatMap {α : Type} {l : Line} {f : α → List Event} (h : ∀ x, Avoids l (f x)) (xs : List α) :
    Avoids l (xs.flatMap f) := by
  intro e he
  obtain ⟨x, _, hx⟩ := List.mem_flatMap.1 he
  exact h x e hx

theorem avoids_set {l l' : Line} (h : l' ≠ l) (lv : Level) : Avoids l [.set l' lv] := by
  intro e he
  exact ⟨l', lv, List.mem_singleton.1 he, h⟩

theorem avoids_shiftBit {l : Line} (hsda : .sda ≠ l) (hclk : .clk ≠ l) (v : Bool) : Avoids l (shiftBit v) :=
  avoids_append (avoids_set hsda _) (avoids_append (avoids_set hclk .hi) (avoids_set hclk .lo))

theorem avoids_shiftBytes {l : Line} (hsda : .sda ≠ l) (hclk : .clk ≠ l) (bs : List Byte) :
    Avoids l (bs.flatMap shiftByte) :=
  avoids_flatMap (fun _ => avoids_flatMap (avoids_shiftBit hsda hclk) _) bs

theorem avoids_latchPulse {l : Line} (h : .lat ≠ l) : Avoids l latchPulse :=
  avoids_append (avoids_set h .lo) (avoids_set h .hi)

/-! Lit rows (40_sequencer.md section 2, Single lit row). -/

theorem mem_litRows {ls : Lines} {x : Row} : x ∈ litRows ls ↔ lineLevel ls (.row x) = some .hi := by
  simp [litRows]

/-- What a row send leaves on the row-select lines. -/
theorem rowLevel_sendRowSeq (ls : Lines) (r x : Row) (px : Vector Byte 24) :
    lineLevel (runLines ls (sendRowSeq (rowNumber r) px)) (.row x) =
      if x = r then some .hi
      else if .row x = prevLine (rowNumber r) then some .lo
      else lineLevel ls (.row x) := by
  rw [lineLevel_sendRowSeq, rowLine_rowNumber]
  simp

/-- One row is lit if its line is the only one that is high. -/
theorem litRows_eq_singleton {ls : Lines} {r : Row} (h : ∀ x, lineLevel ls (.row x) = some .hi ↔ x = r) :
    litRows ls = [r] := by
  have only : litRows ls = (List.finRange Config.rowLines).filter (· = r) :=
    List.filter_congr fun x _ => by simp [h x]
  rw [only]
  clear h only
  revert r; decide

/-- If no row but the previous one is lit, a row send leaves its own row lit. -/
theorem litRows_sendRowSeq {ls : Lines} {r : Row} (h : ∀ x ∈ litRows ls, Line.row x = prevLine (rowNumber r))
    (px : Vector Byte 24) : litRows (runLines ls (sendRowSeq (rowNumber r) px)) = [r] := by
  refine litRows_eq_singleton fun x => ?_
  rw [rowLevel_sendRowSeq]
  split_ifs with hx hprev
  · simp [hx]
  · simp [hx]
  · simp only [hx, iff_false]
    exact fun lit => hprev (h x (mem_litRows.2 lit))

/-- The events of a row send up to its last, after the blanking. -/
theorem take_sendRowSeq (r : Nat) (px : Vector Byte 24) {k : Nat} (hlow : 361 ≤ k) (hhigh : k ≤ 579) :
    (sendRowSeq r px).take k =
      beforeBlanking px ++ .set (prevLine r) .lo :: (afterBlanking px ++ latchPulse).take (k - 361) := by
  have whole : sendRowSeq r px =
      (beforeBlanking px ++ [Event.set (prevLine r) .lo]) ++
        ((afterBlanking px ++ latchPulse) ++ [Event.set (rowLine r) .hi]) := by
    simp only [sendRowSeq_eq_blanking, latchPulse, List.append_assoc, List.cons_append, List.nil_append]
  have first : (beforeBlanking px ++ [Event.set (prevLine r) .lo]).length = 361 := by simp [length_beforeBlanking]
  rw [whole, List.take_append, first, List.take_of_length_le (by rw [first]; exact hlow),
    List.take_append_of_le_length (by simp [length_afterBlanking, latchPulse]; omega)]
  simp

/-- If no row but the previous one is lit, none is lit from the blanking to the assert. -/
theorem litRows_take_sendRowSeq {ls : Lines} {r : Nat} (h : ∀ x ∈ litRows ls, Line.row x = prevLine r)
    (px : Vector Byte 24) {k : Nat} (hlow : 361 ≤ k) (hhigh : k ≤ 579) :
    litRows (runLines ls ((sendRowSeq r px).take k)) = [] := by
  refine List.eq_nil_iff_forall_not_mem.2 fun x lit => ?_
  have before : Avoids (.row x) (beforeBlanking px) := avoids_shiftBytes (by simp) (by simp) _
  have after : Avoids (.row x) ((afterBlanking px ++ latchPulse).take (k - 361)) :=
    avoids_take (avoids_append (avoids_shiftBytes (by simp) (by simp) _) (avoids_latchPulse (by simp))) _
  rw [mem_litRows, take_sendRowSeq r px hlow hhigh, runLines_append, runLines_cons, lineLevel_of_avoids after, applyEvent,
    lineLevel_set, lineLevel_of_avoids before] at lit
  split at lit
  · contradiction
  · next hprev => exact hprev (h x (mem_litRows.2 lit)).symm

/-- The row of scan position `n`. -/
def scanRow (n : Nat) : Row := ⟨n % 8, Nat.mod_lt n (by decide)⟩

/-- In scan order the row before the next one is this one. -/
theorem prevLine_scanRow_succ (n : Nat) : prevLine (rowNumber (scanRow (n + 1))) = .row (scanRow n) := by
  rw [prevLine_rowNumber]
  congr 1
  apply Fin.ext
  show ((n + 1) % 8 + 7) % 8 = n % 8
  omega

/-- A row sent in scan order is the one lit after it. -/
theorem exec_sendRow_scanRow {n : Nat} {s : State} {px : Vector Byte 24} (hs : s.running) (hr : s.drvReady = true)
    (hpx : s.rowbuf = px.map some) (lit : ∀ x ∈ litRows s.lines, Line.row x = prevLine (rowNumber (scanRow n))) :
    exec (.sendRow (rowNumber (scanRow n))) s = .next (s.emit (sendRowSeq (rowNumber (scanRow n)) px)) ∧
      litRows (s.emit (sendRowSeq (rowNumber (scanRow n)) px)).lines = [scanRow n] :=
  ⟨PseudoProofs.exec_sendRow hs hr _ ((rowbufBytes?_some s px).2 hpx), litRows_sendRowSeq lit px⟩

theorem runAll_scanOrder (n : Nat) {r0 : Nat} {s : State} {px : Vector Byte 24} (hs : s.running) (hr : s.drvReady = true)
    (hpx : s.rowbuf = px.map some) (lit : ∀ x ∈ litRows s.lines, Line.row x = prevLine (rowNumber (scanRow r0))) :
    ∃ t, runAll ((List.range (n + 1)).map fun k => .sendRow (rowNumber (scanRow (r0 + k)))) s = .next t ∧
      litRows t.lines = [scanRow (r0 + n)] := by
  induction n generalizing r0 s with
  | zero =>
    obtain ⟨sent, litNow⟩ := exec_sendRow_scanRow hs hr hpx lit
    exact ⟨_, PseudoProofs.runAll_cons sent, litNow⟩
  | succ n ih =>
    obtain ⟨sent, litNow⟩ := exec_sendRow_scanRow hs hr hpx lit
    obtain ⟨t, run, litThen⟩ := ih (r0 := r0 + 1) (s := s.emit (sendRowSeq (rowNumber (scanRow r0)) px)) hs hr hpx
      (by rw [litNow, prevLine_scanRow_succ]; simp)
    refine ⟨t, ?_, by rw [litThen, Nat.add_right_comm]; rfl⟩
    rw [List.range_succ_eq_map, List.map_cons, List.map_map, Nat.add_zero, PseudoProofs.runAll_cons sent, ← run]
    simp only [Function.comp_def, Nat.succ_eq_add_one, Nat.add_right_comm r0 1, Nat.add_assoc]

/-- Settles O36: the blanking puts the previous row out, the last event lights the sent one, which is the previous row of the
next send. -/
theorem scanOrderLightsOneRow : Obligations.ScanOrderLightsOneRow := by
  unfold Obligations.ScanOrderLightsOneRow
  refine ⟨fun r px ls lit k hlow hhigh => litRows_take_sendRowSeq lit px hlow hhigh, fun r0 n s px hs hr hpx lit => ?_⟩
  obtain ⟨t, run, litThen⟩ := runAll_scanOrder n hs hr hpx lit
  exact ⟨t, run, by rw [litThen]; rfl⟩

/-! DISPLAY_FULL (40_sequencer.md section 2). -/

/-- Eight row sends in order leave row 8 high and every other row low. -/
theorem rowLevel_allRows (ls : Lines) (px : Row → Vector Byte 24) (x : Row) :
    lineLevel (runLines ls ((List.finRange Config.rows).flatMap fun r => sendRowSeq (rowNumber r) (px r))) (.row x) =
      some (if x = 7 then .hi else .lo) := by
  have rows : List.finRange Config.rows = [0, 1, 2, 3, 4, 5, 6, 7] := by decide
  rw [rows]
  simp only [List.flatMap_cons, List.flatMap_nil, List.append_nil, runLines_append, rowLevel_sendRowSeq,
    prevLine_rowNumber]
  fin_cases x <;> rfl

/-- Settles O40: the eight rows of the current frame are sent in order. -/
theorem displayFullEndsWithRowEightLit : Obligations.DisplayFullEndsWithRowEightLit := by
  unfold Obligations.DisplayFullEndsWithRowEightLit
  intro s hs hr
  obtain ⟨rb, eq, _⟩ := fold_showRow (List.finRange Config.rows) s
  have levels := rowLevel_allRows s.lines s.frameRow
  refine ⟨_, (execDisplayFull_next s _).2 ⟨hs, .inl ⟨hr, eq.symm⟩⟩, ?_, fun r => ?_⟩
  · rw [litRows_eq_singleton (r := 7) fun x => by rw [levels x]; split <;> simp_all]
    rfl
  · show (lineLevel _ _).isSome = true
    rw [levels r]
    rfl

/-! Bank initialization comes before row data (70_reset_and_hazards.md R229). -/

theorem avoids_en_sendRowSeq (r : Nat) (px : Vector Byte 24) : Avoids .en (sendRowSeq r px) := by
  obtain ⟨a, ha⟩ := rowLine_is_row r
  obtain ⟨b, hb⟩ := prevLine_is_row r
  rw [sendRowSeq_eq, ha, hb]
  have bytes := avoids_shiftBytes (l := .en) (by decide) (by decide)
  exact avoids_append (avoids_append (avoids_append (avoids_append (bytes _) (avoids_set (by simp) _)) (bytes _))
    (avoids_latchPulse (by decide))) (avoids_set (by simp) _)

/-- An operation that sends rows and raises no fault has a ready driver, and its events leave EN alone. -/
theorem trace_of_sendsRows {i : Instr} {s t : State} (hi : sendsRows i) (h : exec i s = .next t) (ht : t.fault = none) :
    s.drvReady = true ∧ ∃ es, t.trace = s.trace ++ es ∧ Avoids .en es := by
  obtain rfl | rfl | ⟨row, rfl⟩ := hi
  · obtain ⟨_, ⟨hr, rfl⟩ | ⟨_, rfl⟩⟩ := (execTick_next s t).1 h
    · exact ⟨hr, _, showRow_trace _ _, avoids_en_sendRowSeq _ _⟩
    · contradiction
  · obtain ⟨_, ⟨hr, rfl⟩ | ⟨_, rfl⟩⟩ := (execDisplayFull_next s t).1 h
    · obtain ⟨rb, eq, _⟩ := fold_showRow (List.finRange Config.rows) s
      exact ⟨hr, _, by rw [eq], avoids_flatMap (fun r => avoids_en_sendRowSeq _ _) _⟩
    · contradiction
  · obtain ⟨_, ⟨hr, px, _, rfl⟩ | ⟨_, _, rfl⟩ | ⟨_, rfl⟩⟩ := (execSendRow_next row s t).1 h
    · exact ⟨hr, _, rfl, avoids_en_sendRowSeq _ _⟩
    · contradiction
    · contradiction

theorem bankInitSeq_isInfix_initSeq : bankInitSeq <:+: initSeq := by
  rw [initSeq_eq_bankInitSeq]
  exact (List.suffix_append _ _).isInfix

/-- EN is low from the first event of the bank initialization to the last shifted bit. -/
theorem en_take_bankInitSeq (ls : Lines) {k : Nat} (hlow : 1 ≤ k) (hhigh : k ≤ 433) :
    lineLevel (runLines ls (bankInitSeq.take k)) .en = some .lo := by
  obtain ⟨j, rfl⟩ := Nat.exists_eq_add_of_le' hlow
  have bits := avoids_flatMap (avoids_shiftBit (l := .en) (by decide) (by decide)) (List.replicate Config.bankInitBits true)
  have length : ((List.replicate Config.bankInitBits true).flatMap shiftBit).length = 432 := by
    simp [length_shiftBit, Config.bankInitBits]
  have taken : bankInitSeq.take (j + 1) =
      .set .en .lo :: ((List.replicate Config.bankInitBits true).flatMap shiftBit).take j := by
    rw [bankInitSeq, List.append_assoc, List.append_assoc, List.singleton_append, List.take_succ_cons,
      List.take_append_of_le_length (by omega)]
  rw [taken, runLines_cons, lineLevel_of_avoids (avoids_take bits j), applyEvent, lineLevel_set, if_pos rfl]

/-- Settles O37: a ready driver's TRACE begins with INIT's events and its EN rests high, and a row send leaves EN alone. -/
theorem bankInitComesBeforeRowData : Obligations.BankInitComesBeforeRowData := by
  unfold Obligations.BankInitComesBeforeRowData
  refine ⟨fun i s t hs idle hi h ht => ?_, fun ls k => en_take_bankInitSeq ls⟩
  obtain ⟨hr, es, trace, avoids⟩ := trace_of_sendsRows hi h ht
  have resting : s.Resting := by have rest := hs.rest; rwa [idle] at rest
  obtain ⟨_, begun⟩ := resting.afterInit hr
  obtain ⟨_, _, en, _⟩ := resting.restLevels hr
  refine ⟨bankInitSeq_isInfix_initSeq.trans begun.isInfix, es, trace, fun k => ?_⟩
  rw [lineLevel_of_avoids (avoids_take avoids k)]
  exact en

end Sys2Proof.Machine.LineProofs
end

section
/-! SUPPORT. The scan over several operations (42_row_scan.md section 3): cadence, late ticks, frame atomicity, the boot order. -/

namespace Sys2Proof.Machine.ScanProofs

open Machine.Laws RolesProofs SequencerProofs ExceptionProofs RowScanProofs ProducerProofs EffectProofs

/-! Runs of operations. -/

theorem running_of_exec {i : Instr} {s t : State} (h : exec i s = .next t) : s.running := by
  obtain ⟨body, eq⟩ := exec_eq_whenRunning i s
  rw [eq] at h
  exact ((whenRunning_next s t body).1 h).1

/-- A run begins with its first operation. -/
theorem runAll_cons_next {i : Instr} {is : List Instr} {s t : State} :
    runAll (i :: is) s = .next t ↔ ∃ u, exec i s = .next u ∧ runAll is u = .next t := by
  rw [runAll]
  cases exec i s <;> simp

/-- No run starts with FAULT set, so one that ends running has had no fault at its start. -/
theorem running_of_runAll {is : List Instr} {s t : State} (h : runAll is s = .next t) (ht : t.running) : s.running := by
  cases is with
  | nil => cases h; exact ht
  | cons i is =>
    obtain ⟨u, hu, _⟩ := runAll_cons_next.1 h
    exact running_of_exec hu

/-! One operation of a scan. -/

/-- A tick that raises no fault. -/
theorem eq_of_exec_tick {s t : State} (h : exec .tick s = .next t) (ht : t.running) :
    t = ((tickStart s).showRow s.nextRow).advanceScan := by
  obtain ⟨_, ⟨_, eq⟩ | ⟨_, rfl⟩⟩ := (execTick_next s t).1 h
  · exact eq
  · contradiction

theorem nextRow_of_exec {i : Instr} {s t : State} (h : exec i s = .next t) (ht : t.running) :
    t.nextRow = if i = .tick then nextRowOf s.nextRow else s.nextRow := by
  split
  · next hi =>
    subst hi
    rw [eq_of_exec_tick h ht]
    simp [tickStart]
  · next hi =>
    obtain ⟨_, _, _, writer, _⟩ := elementsHaveOnlyTheirWriters i s t h
    exact not_not.1 fun changed => hi (writer changed)

/-- Once armed the block stays armed: a second ARM is a fault. -/
theorem armed_of_exec {i : Instr} {s t : State} (h : exec i s = .next t) (ht : t.running) (ha : s.armed = true) :
    i ≠ .arm ∧ t.armed = true := by
  have hi : i ≠ .arm := by
    rintro rfl
    obtain ⟨_, ⟨_, _, rfl⟩ | ⟨_, unarmed, _⟩ | ⟨_, rfl⟩⟩ := (execArm_next s t).1 h
    · contradiction
    · simp [ha] at unarmed
    · contradiction
  obtain ⟨_, _, writer, _⟩ := elementsHaveOnlyTheirWriters i s t h
  exact ⟨hi, ha ▸ not_not.1 fun changed => hi (writer changed)⟩

theorem deadline_of_exec {i : Instr} {s t : State} {d : Time} (h : exec i s = .next t) (ht : t.running)
    (ha : s.armed = true) (hd : s.deadline = some d) : t.deadline = some (if i = .tick then d.add delta else d) := by
  split
  · next hi =>
    subst hi
    rw [eq_of_exec_tick h ht]
    simp [tickStart, hd]
  · next hi =>
    obtain ⟨_, _, _, _, writer, _⟩ := elementsHaveOnlyTheirWriters i s t h
    rw [← hd]
    exact not_not.1 fun changed => (writer changed).elim (armed_of_exec h ht ha).1 hi

/-! Cadence. -/

theorem count_cons_tick (i : Instr) (is : List Instr) :
    (i :: is).count .tick = is.count .tick + if i = .tick then 1 else 0 := by
  rw [List.count_cons]
  simp

theorem nextRow_of_runAll {is : List Instr} {s t : State} (h : runAll is s = .next t) (ht : t.running) :
    t.nextRow.val = (s.nextRow.val + is.count .tick) % 8 := by
  induction is generalizing s with
  | nil =>
    cases h
    exact (Nat.mod_eq_of_lt t.nextRow.isLt).symm
  | cons i is ih =>
    obtain ⟨u, hu, hrest⟩ := runAll_cons_next.1 h
    rw [ih hrest, nextRow_of_exec hu (running_of_runAll hrest ht), count_cons_tick]
    split
    · simp only [nextRowOf]; omega
    · rfl

theorem deadline_of_runAll {is : List Instr} {s t : State} {d0 : Time} (h : runAll is s = .next t) (ht : t.running)
    (ha : s.armed = true) (hd : s.deadline = some d0) :
    ∃ d, t.deadline = some d ∧ d.secs = d0.secs + (is.count .tick : Rat) * delta.secs := by
  induction is generalizing s d0 with
  | nil =>
    cases h
    exact ⟨d0, hd, by simp⟩
  | cons i is ih =>
    obtain ⟨u, hu, hrest⟩ := runAll_cons_next.1 h
    have hrun := running_of_runAll hrest ht
    obtain ⟨d, hdt, eq⟩ := ih hrest (armed_of_exec hu hrun ha).2 (deadline_of_exec hu hrun ha hd)
    refine ⟨d, hdt, ?_⟩
    rw [eq, count_cons_tick]
    split
    · simp only [Time.add]; push_cast; ring
    · rfl

/-- Settles O44: each tick moves NEXTROW and the deadline one step on, and no other operation of the run moves them. -/
theorem cadenceAfterTicks : Obligations.CadenceAfterTicks := by
  unfold Obligations.CadenceAfterTicks
  intro ops s t h ht h0
  refine ⟨?_, fun d0 ha hd => deadline_of_runAll h ht ha hd⟩
  rw [rowNumber, nextRow_of_runAll h ht, h0]
  simp

/-! Late ticks. -/

/-- Settles O45: of the time a tick reads and writes nothing. -/
theorem latenessMovesNoDeadline : Obligations.LatenessMovesNoDeadline := by
  unfold Obligations.LatenessMovesNoDeadline
  intro s late hs hr
  refine ⟨_, exec_tick hs hr, ?_⟩
  rw [exec_tick (s := { s with now := late }) hs hr, PseudoProofs.showRow_eq, PseudoProofs.showRow_eq]
  rfl

/-! The current frame. -/

/-- An operation of the engine writes nothing of the producer's but CUR and PEND. -/
theorem mem_of_exec_engine {i : Instr} {s t : State} (h : exec i s = .next t) (hi : ∀ b, i ≠ .rxByte b) :
    t.mem = s.mem ∧ t.rcv = s.rcv ∧ t.cursor = s.cursor := by
  obtain ⟨_, _, _, _, _, _, writer, _⟩ := elementsHaveOnlyTheirWriters i s t h
  have unchanged : ¬ (t.mem ≠ s.mem ∨ t.rcv ≠ s.rcv ∨ t.cursor ≠ s.cursor) := fun changed => by
    obtain ⟨b, hb⟩ := writer changed
    exact hi b hb
  simpa only [ne_eq, not_or, not_not] using unchanged

/-- CUR moves only to the slot that was pending, at a frame boundary. -/
theorem cur_of_exec_tick {s t : State} (h : exec .tick s = .next t) :
    t.cur = s.cur ∨ s.nextRow = 0 ∧ s.pend = some t.cur := by
  obtain ⟨_, ⟨_, rfl⟩ | ⟨_, rfl⟩⟩ := (execTick_next s t).1 h
  · simp only [advanceScan_cur, showRow_cur, tickSlot]
    split
    · next h0 => cases hp : s.pend <;> simp [h0]
    · exact .inl rfl
  · exact .inl rfl

/-- Settles O46: a byte moves no current frame and writes none; of the other operations only a tick at a boundary moves CUR,
and none writes a frame. -/
theorem currentFrameChangesOnlyAtABoundary : Obligations.CurrentFrameChangesOnlyAtABoundary := by
  unfold Obligations.CurrentFrameChangesOnlyAtABoundary
  intro i s t hs h
  by_cases hb : ∃ b, i = .rxByte b
  · obtain ⟨b, rfl⟩ := hb
    have cur := cur_of_exec_rxByte h
    exact ⟨fun _ => cur, .inl cur, fun o => by rw [cur]; exact frameRead_cur_of_exec_rxByte hs h o⟩
  · obtain ⟨mem, _⟩ := mem_of_exec_engine h (not_exists.1 hb)
    have moved : t.cur = s.cur ∨ (i = .tick ∧ s.nextRow = 0) ∧ s.pend = some t.cur := by
      by_cases hi : i = .tick
      · subst hi
        simpa using cur_of_exec_tick h
      · obtain ⟨_, _, _, _, _, _, _, writer, _⟩ := elementsHaveOnlyTheirWriters i s t h
        exact .inl (not_not.1 fun changed => hi (writer changed))
    refine ⟨fun hboundary => moved.resolve_right fun m => hboundary m.1, moved.imp_right And.right, fun o => ?_⟩
    rw [State.frameRead, mem]
    rfl

/-! One frame in eight ticks. -/

/-- What a byte of the producer leaves alone of a scan. -/
theorem scan_of_exec_rxByte {b : Byte} {s u : State} (hs : s.RolesDistinct) (h : exec (.rxByte b) s = .next u) :
    u.RolesDistinct ∧ u.running ∧ u.drvReady = s.drvReady ∧ u.nextRow = s.nextRow ∧ u.cur = s.cur ∧ u.trace = s.trace ∧
      u.frameRow = s.frameRow := by
  have frame := eq_withProducer_of_exec h
  have cur := cur_of_exec_rxByte h
  refine ⟨rolesDistinct_execRxByte hs h, fault_eq_none_of_execRxByte h, by rw [frame]; rfl, by rw [frame]; rfl, cur,
    by rw [frame]; rfl, funext fun r => ?_⟩
  simp only [State.frameRow, cur, frameRead_cur_of_exec_rxByte hs h]

/-- What a tick does to a scan, besides the deadline. -/
theorem exec_tick_scan {s : State} (hs : s.running) (hr : s.drvReady = true) (roles : s.RolesDistinct) :
    ∃ u, exec .tick s = .next u ∧ u.RolesDistinct ∧ u.running ∧ u.drvReady = true ∧ u.nextRow = nextRowOf s.nextRow ∧
      u.cur = tickSlot s ∧ u.trace = s.trace ++ sendRowSeq (rowNumber s.nextRow) ((tickStart s).frameRow s.nextRow) ∧
      u.frameRow = (tickStart s).frameRow := by
  have moved : (tickStart s).RolesDistinct := by
    rw [tickStart, ← performAll_boundaryTasks]
    unfold boundaryTasks
    split
    · exact rolesDistinct_handoffSchedulerSide roles
    · exact roles
  refine ⟨_, exec_tick hs hr, rolesDistinct_congr moved (by simp) (by simp) (by simp), ?_, ?_, by simp [tickStart],
    by simp [tickStart], by simp [tickStart], funext fun r => ?_⟩
  · simpa [tickStart, State.running] using hs
  · simpa [tickStart] using hr
  · simp [State.frameRow, State.frameRead]

/-- The events of the rows of the current frame. -/
def rowEvents (s : State) (rows : List Row) : List Event := rows.flatMap fun r => sendRowSeq (rowNumber r) (s.frameRow r)

/-- The rows from a row on begin with it. -/
theorem drop_finRange_rows (r : Row) :
    (List.finRange Config.rows).drop r.val = r :: (List.finRange Config.rows).drop (r.val + 1) := by
  rw [List.drop_eq_getElem_cons (by simp)]
  simp

/-- The ticks that are left of a frame send its rows that are left, whatever bytes come between them. -/
theorem runAll_restOfFrame {rest : List Instr} {s : State} (hs : s.running) (hr : s.drvReady = true) (roles : s.RolesDistinct)
    (only : ∀ i ∈ rest, i = .tick ∨ ∃ b, i = .rxByte b) (count : rest.count .tick = (8 - s.nextRow.val) % 8) :
    ∃ t, runAll rest s = .next t ∧ t.nextRow = 0 ∧ t.cur = s.cur ∧
      t.trace = s.trace ++ rowEvents s ((List.finRange Config.rows).drop (8 - rest.count .tick)) := by
  have hrow : s.nextRow.val < 8 := s.nextRow.isLt
  induction rest generalizing s with
  | nil =>
    have h0 : s.nextRow.val = 0 := by simp only [List.count_nil] at count; omega
    exact ⟨s, rfl, Fin.ext h0, rfl, by rw [List.count_nil, List.drop_of_length_le (by simp), rowEvents]; simp⟩
  | cons i rest ih =>
    obtain ⟨hi, onlyRest⟩ := List.forall_mem_cons.1 only
    obtain rfl | ⟨b, rfl⟩ := hi
    · rw [count_cons_tick, if_pos rfl] at count
      have inside : s.nextRow ≠ 0 := fun h0 => by simp [h0] at count
      have start : tickStart s = s := by simp [tickStart, tickSlot, inside]
      obtain ⟨u, hu, uRoles, uRun, uReady, uRow, uCur, uTrace, uFrame⟩ := exec_tick_scan hs hr roles
      have uVal : u.nextRow.val = (s.nextRow.val + 1) % 8 := by rw [uRow]; rfl
      obtain ⟨t, run, tRow, tCur, tTrace⟩ := ih uRun uReady uRoles onlyRest (by rw [uVal]; omega) (by omega)
      refine ⟨t, runAll_cons_next.2 ⟨u, hu, run⟩, tRow, by rw [tCur, uCur, tickSlot, if_neg inside], ?_⟩
      have left : 8 - (rest.count .tick + 1) = s.nextRow.val := by omega
      have later : 8 - rest.count .tick = s.nextRow.val + 1 := by omega
      rw [tTrace, uTrace, count_cons_tick, if_pos rfl, left, later, drop_finRange_rows, List.append_assoc, rowEvents,
        rowEvents, uFrame, start]
      rfl
    · obtain ⟨u, hu⟩ := exists_exec_rxByte b hs
      obtain ⟨uRoles, uRun, uReady, uRow, uCur, uTrace, uFrame⟩ := scan_of_exec_rxByte roles hu
      rw [count_cons_tick, if_neg (by simp), Nat.add_zero] at count ⊢
      obtain ⟨t, run, tRow, tCur, tTrace⟩ := ih uRun (uReady.trans hr) uRoles onlyRest (by rw [uRow]; exact count)
        (by rw [uRow]; exact hrow)
      refine ⟨t, runAll_cons_next.2 ⟨u, hu, run⟩, tRow, tCur.trans uCur, ?_⟩
      rw [tTrace, uTrace, rowEvents, rowEvents, uFrame]

/-- Settles O47: the boundary tick fixes the frame and sends row 1, and the seven ticks after it send the rest of it. -/
theorem eightTicksSendOneFrame : Obligations.EightTicksSendOneFrame := by
  unfold Obligations.EightTicksSendOneFrame
  intro rest s hs hr roles h0 only count
  obtain ⟨u, hu, uRoles, uRun, uReady, uRow, uCur, uTrace, uFrame⟩ := exec_tick_scan hs hr roles
  have second : u.nextRow = 1 := by rw [uRow, h0]; rfl
  obtain ⟨t, run, tRow, tCur, tTrace⟩ := runAll_restOfFrame uRun uReady uRoles only (by rw [count, second]; rfl)
  refine ⟨t, runAll_cons_next.2 ⟨u, hu, run⟩, tRow, tCur.trans uCur, ?_⟩
  have rows : List.finRange 8 = 0 :: (List.finRange Config.rows).drop 1 := drop_finRange_rows 0
  rw [tTrace, uTrace, count, h0, rows, List.append_assoc, rowEvents, uFrame]
  rfl

/-! The boot order (70_reset_and_hazards.md section 2). -/

/-- The block as INIT leaves it after power-on. -/
def booted : State := { State.reset.emit initSeq with lineMode := .outputHighDrive, drvReady := true }

theorem exec_init_reset : exec .init State.reset = .next booted := (execInit_next _ _).2 ⟨rfl, .inr ⟨rfl, rfl⟩⟩

theorem exec_arm_booted : exec .arm booted = .next booted.armScan :=
  (execArm_next _ _).2 ⟨rfl, .inr (.inl ⟨rfl, rfl, rfl⟩)⟩

/-- Nothing is written before the first tick, so it sends the power-on contents of slot 0. -/
theorem frameRow_booted (r : Row) :
    (tickStart booted.armScan).frameRow r = Vector.ofFn fun i => Config.initialCurrent (rowOffset r i) := by
  unfold State.frameRow
  congr 1
  funext i
  exact ResetProofs.unlisted_flatAddr_zero (rowOffset r i)

/-- Settles O58: INIT readies the block, ARM starts the scan, and the first tick sends row 1. -/
theorem bootReachesTheScan : Obligations.BootReachesTheScan := by
  unfold Obligations.BootReachesTheScan
  refine ⟨_, runAll_cons_next.2 ⟨_, exec_init_reset, runAll_cons_next.2 ⟨_, exec_arm_booted,
    runAll_cons_next.2 ⟨_, exec_tick rfl rfl, rfl⟩⟩⟩, ?_, ?_, ?_, ?_⟩
  · simp [State.running, tickStart, booted, State.reset]
  · simp [tickStart]
  · simp [tickStart, booted]; rfl
  · rw [advanceScan_trace, showRow_trace, frameRow_booted]
    simp [tickStart, booted, State.reset, rowNumber]

end Sys2Proof.Machine.ScanProofs
end

section
/-! SUPPORT. Frames as the producer receives them (41_host_port.md sections 3 and 4): the fresh pattern, a completion, and a
committed frame. -/

namespace Sys2Proof.Machine.FrameProofs

open Machine.Laws RolesProofs HostPortProofs ExceptionProofs ProducerProofs EffectProofs ScanProofs

theorem patterned_spot_ne_zero (spot : Offset) (level : Fin 255) (other : Frame) :
    Config.patterned spot level other spot ≠ 0#8 := by
  have below := level.isLt
  rw [Config.patterned, if_pos rfl]
  intro blank
  have zero := congrArg BitVec.toNat blank
  rw [BitVec.toNat_ofNat, Nat.mod_eq_of_lt (by omega)] at zero
  exact Nat.succ_ne_zero _ zero

/-- Settles O49: the byte at the fresh pattern's spot is one more than a level below 255. -/
theorem freshPatternIsNotBlank : Obligations.FreshPatternIsNotBlank := by
  unfold Obligations.FreshPatternIsNotBlank
  exact ⟨Config.freshSpot, patterned_spot_ne_zero _ _ _⟩

/-- What a completion leaves: the completed slot pending, and another slot, not the current one, to receive into. -/
structure Completion (b : Byte) (s t : State) : Prop where
  pend : t.pend = some s.rcv
  cur : t.cur = s.cur
  cursor : t.cursor = 0
  rcvNeCur : t.rcv ≠ s.cur
  rcvNeRcv : t.rcv ≠ s.rcv
  frames : ∀ (y : Slot) (o : Offset), y ≠ t.rcv →
    t.frameRead y o = if y = s.rcv ∧ o = s.cursor then b else s.frameRead y o

theorem completion_of_exec {b : Byte} {s t : State} (hb : b ≠ 0xFF#8) (hc : s.cursor.val = 191)
    (h : exec (.rxByte b) s = .next t) : Completion b s t := by
  obtain ⟨_, _, _, last⟩ := rxByteTakesOneByte b s (running_of_exec h)
  obtain ⟨m, x, eq, halloc, frames⟩ := last hb hc
  obtain ⟨xCur, xRcv⟩ := ne_of_installPending_alloc halloc
  obtain rfl := Host.Outcome.next.inj (h.symm.trans eq)
  exact ⟨rfl, rfl, rfl, xCur, xRcv, fun y o hy => (frames y o).trans (if_neg hy)⟩

/-- With a frame pending and distinct roles no slot is free. -/
theorem freeSlots_of_pend {s : State} {p : Slot} (hs : s.RolesDistinct) (hp : s.pend = some p) :
    s.freeSlots.length = 0 := by
  have count := length_freeSlots_add_allocated hs
  rw [allocated_eq, hp] at count
  simpa using count

/-- Settles O50: the second completion receives into the one slot that is neither current nor completed, which is the first
frame's. -/
theorem newestFrameWins : Obligations.NewestFrameWins := by
  unfold Obligations.NewestFrameWins
  intro b b' s t u roles hb hb' hc ht m c hc' hu
  have first := completion_of_exec hb hc ht
  have second := completion_of_exec hb' hc' hu
  have tRoles : t.RolesDistinct := rolesDistinct_execRxByte roles ht
  have uRoles : u.RolesDistinct :=
    rolesDistinct_execRxByte (rolesDistinct_congr (t := { t with mem := m, cursor := c }) tRoles rfl rfl rfl) hu
  have onlyThree : ∀ cur rcv x y : Slot, cur ≠ rcv → x ≠ cur → x ≠ rcv → y ≠ cur → y ≠ x → y = rcv := by decide
  refine ⟨first.pend, second.pend, ?_, second.cur.trans first.cur, ?_⟩
  · exact onlyThree s.cur s.rcv t.rcv u.rcv roles.curRcv first.rcvNeCur first.rcvNeRcv
      (first.cur ▸ second.rcvNeCur) second.rcvNeRcv
  · rw [freeSlots_of_pend uRoles second.pend, freeSlots_of_pend tRoles first.pend]

/-! A committed frame. -/

theorem runAll_append_next {as bs : List Instr} {s t : State} :
    runAll (as ++ bs) s = .next t ↔ ∃ u, runAll as s = .next u ∧ runAll bs u = .next t := by
  induction as generalizing s with
  | nil => simp [runAll]
  | cons i as ih =>
    simp only [List.cons_append, runAll_cons_next, ih]
    exact ⟨fun ⟨v, hv, u, hu, ht⟩ => ⟨u, ⟨v, hv, hu⟩, ht⟩, fun ⟨u, ⟨v, hv, hu⟩, ht⟩ => ⟨v, hv, u, hu, ht⟩⟩

/-- From `s` to `t` these bytes were received into one slot at rising offsets from CURSOR on, and the bytes before it are as
they were. -/
structure Received (bytes : List Byte) (s t : State) : Prop where
  rcv : t.rcv = s.rcv
  cursor : t.cursor.val = s.cursor.val + bytes.length
  before : ∀ o : Offset, o.val < s.cursor.val → t.frameRead s.rcv o = s.frameRead s.rcv o
  since : ∀ o : Offset, s.cursor.val ≤ o.val → o.val < t.cursor.val →
    bytes[o.val - s.cursor.val]? = some (t.frameRead s.rcv o)

theorem received_nil {s t : State} (mem : t.mem = s.mem) (rcv : t.rcv = s.rcv) (cursor : t.cursor = s.cursor) :
    Received [] s t where
  rcv := rcv
  cursor := by rw [cursor]; rfl
  before o _ := by rw [State.frameRead, mem]; rfl
  since o hlow hhigh := by rw [cursor] at hhigh; omega

/-- A byte that is not the last of its frame. -/
theorem received_singleton {b : Byte} {s t : State} (hb : b ≠ 0xFF#8) (hc : s.cursor.val < 191)
    (h : exec (.rxByte b) s = .next t) : Received [b] s t := by
  obtain ⟨_, _, ordinary, _⟩ := rxByteTakesOneByte b s (running_of_exec h)
  obtain ⟨m, c, eq, hc', frames⟩ := ordinary hb hc
  obtain rfl := Host.Outcome.next.inj (h.symm.trans eq)
  refine ⟨rfl, hc', fun o ho => ?_, fun o hlow hhigh => ?_⟩
  · exact (frames s.rcv o).trans (if_neg fun hat => by rw [hat.2] at ho; omega)
  · have here : o = s.cursor := Fin.ext (by have : o.val < c.val := hhigh; omega)
    rw [here, Nat.sub_self]
    exact congrArg some ((frames s.rcv s.cursor).trans (if_pos ⟨rfl, rfl⟩)).symm

theorem received_append {xs ys : List Byte} {s u t : State} (first : Received xs s u) (second : Received ys u t) :
    Received (xs ++ ys) s t where
  rcv := second.rcv.trans first.rcv
  cursor := by rw [second.cursor, first.cursor, List.length_append, Nat.add_assoc]
  before o ho := by
    have kept := second.before o (by rw [first.cursor]; omega)
    rw [first.rcv] at kept
    rw [kept, first.before o ho]
  since o hlow hhigh := by
    have cursor := first.cursor
    by_cases ho : o.val < u.cursor.val
    · have kept := second.before o ho
      rw [first.rcv] at kept
      rw [List.getElem?_append_left (by omega), kept]
      exact first.since o hlow ho
    · have new := second.since o (by omega) hhigh
      rw [first.rcv] at new
      rw [List.getElem?_append_right (by omega), ← new]
      congr 1
      omega

/-- One operation of a run receives its byte, if it has one. -/
theorem received_of_exec {i : Instr} {s t : State} (h : exec i s = .next t) (hb : ∀ b, i = .rxByte b → b ≠ 0xFF#8)
    (hc : s.cursor.val + (receivedByte i).toList.length ≤ 191) : Received (receivedByte i).toList s t := by
  cases hi : receivedByte i with
  | some b =>
    have byte : i = .rxByte b := by cases i <;> simp_all [receivedByte]
    subst byte
    exact received_singleton (hb b rfl) (by simp only [hi, Option.toList_some, List.length_singleton] at hc; omega) h
  | none =>
    obtain ⟨mem, rcv, cursor⟩ := mem_of_exec_engine h (by rintro b rfl; contradiction)
    exact received_nil mem rcv cursor

/-- A run that does not complete a frame receives its bytes in order. -/
theorem received_of_runAll {ops : List Instr} {s t : State} (h : runAll ops s = .next t)
    (hb : ∀ b ∈ ops.filterMap receivedByte, b ≠ 0xFF#8)
    (hc : s.cursor.val + (ops.filterMap receivedByte).length ≤ 191) : Received (ops.filterMap receivedByte) s t := by
  induction ops generalizing s with
  | nil =>
    obtain rfl := Host.Outcome.next.inj h
    exact received_nil rfl rfl rfl
  | cons i ops ih =>
    obtain ⟨u, hu, hrest⟩ := runAll_cons_next.1 h
    have split : (i :: ops).filterMap receivedByte = (receivedByte i).toList ++ ops.filterMap receivedByte := by
      rw [List.filterMap_cons]
      cases receivedByte i <;> rfl
    rw [split] at hb hc ⊢
    rw [List.length_append] at hc
    have first := received_of_exec hu (by rintro b rfl; exact hb b (by simp [receivedByte])) (by omega)
    exact received_append first (ih hrest (fun b hmem => hb b (List.mem_append_right _ hmem)) (by rw [first.cursor]; omega))

/-- Settles O51: 191 bytes are received in order, and the last completes the frame, whose slot is then pending. -/
theorem committedFrameIsTheReceivedBytes : Obligations.CommittedFrameIsTheReceivedBytes := by
  unfold Obligations.CommittedFrameIsTheReceivedBytes
  intro ops last s t h0 h _ hb hlen
  have bytes : (ops ++ [Instr.rxByte last]).filterMap receivedByte = ops.filterMap receivedByte ++ [last] := by
    rw [List.filterMap_append]
    rfl
  rw [bytes] at hb hlen ⊢
  have count : (ops.filterMap receivedByte).length = 191 := by simpa using hlen
  obtain ⟨u, hu, hlast⟩ := runAll_append_next.1 h
  obtain ⟨v, hv, hnil⟩ := runAll_cons_next.1 hlast
  obtain rfl := Host.Outcome.next.inj hnil
  have received := received_of_runAll hu (fun b hmem => hb b (List.mem_append_left _ hmem)) (by rw [h0, count]; decide)
  have cursor : u.cursor.val = 191 := by rw [received.cursor, h0, count]; rfl
  have done := completion_of_exec (hb last (by simp)) cursor hv
  refine ⟨by rw [done.pend, received.rcv], done.cursor, fun o => ?_⟩
  have frame := done.frames s.rcv o (by rw [← received.rcv]; exact done.rcvNeRcv.symm)
  have ho : o.val < 192 := o.isLt
  rw [frame]
  by_cases hend : o.val = 191
  · rw [if_pos ⟨received.rcv.symm, Fin.ext (hend.trans cursor.symm)⟩, hend, ← count]
    exact List.getElem?_concat_length ..
  · rw [if_neg fun hat => hend (by rw [hat.2, cursor]), List.getElem?_append_left (by omega)]
    have since := received.since o (by rw [h0]; exact Nat.zero_le _) (by omega)
    rwa [h0] at since

end Sys2Proof.Machine.FrameProofs
end

section
/-! SUPPORT. The producer and the engine side by side (20_memory.md sections 4 and 5): an operation of the engine sees of the
producer's elements the current frame only, so outside a handoff the two commute. -/

namespace Sys2Proof.Machine.ConcurrencyProofs

open Machine.Laws RolesProofs PseudoProofs ExceptionProofs ProducerProofs InvariantProofs EngineProofs EffectProofs ScanProofs

/-! The engine's side of the frame. -/

/-- A frame store in which the current frame reads as it does in `s`. -/
def SameCurrent (s : State) (m : List Host.Cell) : Prop := ∀ o, memRead m (flatAddr s.cur o) = s.frameRead s.cur o

theorem frameRow_withProducer {s : State} {m : List Host.Cell} (h : SameCurrent s m) (c : Offset) (p : Option Slot)
    (r : Slot) (row : Row) : (withProducer s m c p r).frameRow row = s.frameRow row := by
  unfold State.frameRow
  congr 1
  funext i
  exact h (rowOffset row i)

/-- Outside the handoff a task reads of the producer's elements the current frame only, and writes none of them. -/
theorem perform_withProducer {s : State} {k : Task} (hk : k ≠ .handoff) {m : List Host.Cell} (h : SameCurrent s m)
    (c : Offset) (p : Option Slot) (r : Slot) :
    (withProducer s m c p r).perform k = withProducer (s.perform k) m c p r := by
  cases k with
  | handoff => exact absurd rfl hk
  | load row =>
    simp only [State.perform, State.loadRow, frameRow_withProducer h]
    rfl
  | showRow row =>
    simp only [State.perform, showRow_eq, frameRow_withProducer h]
    rfl
  | emit es => rfl
  | configured => rfl
  | ready => rfl
  | store i v => rfl
  | arm => rfl
  | advance => rfl

theorem sameProducer_perform {s : State} {k : Task} (hk : k ≠ .handoff) : SameProducer s (s.perform k) := by
  cases k with
  | handoff => exact absurd rfl hk
  | showRow row => constructor <;> simp [State.perform]
  | _ => constructor <;> rfl

theorem sameProducer_trans {s u v : State} (hu : SameProducer s u) (hv : SameProducer u v) : SameProducer s v :=
  ⟨hv.mem.trans hu.mem, hv.cursor.trans hu.cursor, hv.cur.trans hu.cur, hv.rcv.trans hu.rcv, hv.pend.trans hu.pend⟩

theorem sameCurrent_congr {s u : State} (hu : SameProducer s u) {m : List Host.Cell} (h : SameCurrent s m) :
    SameCurrent u m := by
  intro o
  rw [State.frameRead, hu.cur, hu.mem]
  exact h o

theorem sameProducer_performAll {s : State} {ts : List Task} (hts : .handoff ∉ ts) : SameProducer s (s.performAll ts) := by
  induction ts generalizing s with
  | nil => exact sameProducer_refl s
  | cons k ts ih =>
    rw [List.mem_cons, not_or] at hts
    exact sameProducer_trans (sameProducer_perform (Ne.symm hts.1)) (ih hts.2)

theorem performAll_withProducer {s : State} {ts : List Task} (hts : .handoff ∉ ts) {m : List Host.Cell}
    (h : SameCurrent s m) (c : Offset) (p : Option Slot) (r : Slot) :
    (withProducer s m c p r).performAll ts = withProducer (s.performAll ts) m c p r := by
  induction ts generalizing s with
  | nil => rfl
  | cons k ts ih =>
    rw [List.mem_cons, not_or] at hts
    have hk := Ne.symm hts.1
    rw [performAll_cons, perform_withProducer hk h, ih hts.2 (sameCurrent_congr (sameProducer_perform hk) h), performAll_cons]

/-- The checks of an operation read none of the producer's elements. -/
theorem planOf_withProducer (i : Instr) (s : State) (m : List Host.Cell) (c : Offset) (p : Option Slot) (r : Slot) :
    planOf i (withProducer s m c p r) = planOf i s := by
  cases i <;> rfl

/-- The handoff is the first task of a tick at a frame boundary, and no other task of any operation. -/
theorem handoff_of_planOf {i : Instr} {s : State} {ts : List Task} (h : planOf i s = some (.runs ts)) :
    .handoff ∉ ts ∨ (i = .tick ∧ s.nextRow = 0) ∧ ∃ rest, ts = .handoff :: rest ∧ .handoff ∉ rest := by
  cases tasksOf_of_planOf h with
  | init _ => simp
  | bankInit _ => simp
  | writeRowbuf _ _ _ _ => simp
  | loadRow _ _ _ => simp
  | sendRow _ _ _ => simp
  | displayFull _ => simp
  | arm _ => simp
  | tick _ =>
    unfold boundaryTasks
    split
    · next h1 => exact .inr ⟨⟨rfl, Fin.ext (Nat.succ.inj h1)⟩, _, rfl, by simp⟩
    · simp

/-- Settles O54: an operation outside a frame boundary performs the same tasks in both stores, and they read the current frame
only. -/
theorem onlyTheCurrentFrameReachesTheLines : Obligations.OnlyTheCurrentFrameReachesTheLines := by
  unfold Obligations.OnlyTheCurrentFrameReachesTheLines
  intro i s t m hm hi hboundary h
  have hs := running_of_exec h
  obtain ⟨b, rfl⟩ | ⟨p, hp⟩ := eq_rxByte_or_exists_planOf i s
  · contradiction
  have hp' := (planOf_withProducer i s m s.cursor s.pend s.rcv).trans hp
  cases p with
  | raises c =>
    obtain rfl := Host.Outcome.next.inj (h.symm.trans (exec_of_planOf_raises hs hp))
    exact exec_of_planOf_raises (s := withProducer s m s.cursor s.pend s.rcv) hs hp'
  | runs ts =>
    obtain rfl := Host.Outcome.next.inj (h.symm.trans (exec_of_planOf_runs hs hp))
    have hts := (handoff_of_planOf hp).resolve_right fun hoff => hboundary hoff.1
    have same := sameProducer_performAll (s := s) hts
    show exec i (withProducer s m s.cursor s.pend s.rcv) =
      .next (withProducer (s.performAll ts) m (s.performAll ts).cursor (s.performAll ts).pend (s.performAll ts).rcv)
    rw [exec_of_planOf_runs (s := withProducer s m s.cursor s.pend s.rcv) hs hp', performAll_withProducer hts hm,
      same.cursor, same.pend, same.rcv]

/-! A byte before or after a part of an operation. -/

/-- In a running state with distinct roles a byte gives the same producer's elements in every state that agrees on those it
reads, and keeps the current frame. -/
theorem exists_byte (b : Byte) {s : State} (hs : s.running) (roles : s.RolesDistinct) : ∃ m c p r, SameCurrent s m ∧
    ∀ u : State, u.running → SameProducer s u → exec (.rxByte b) u = .next (withProducer u m c p r) := by
  obtain ⟨m, c, p, r, writes⟩ := exec_rxByte_local b s
  exact ⟨m, c, p, r, frameRead_cur_of_exec_rxByte roles (writes s hs (sameProducer_refl s)), writes⟩

theorem act_withProducer {s : State} (hts : s.todo.head? ≠ some .handoff) {m : List Host.Cell} (h : SameCurrent s m)
    (c : Offset) (p : Option Slot) (r : Slot) : (withProducer s m c p r).act = withProducer s.act m c p r := by
  obtain ⟨ts, u, rfl⟩ : ∃ ts u, s = { u with todo := ts } := ⟨s.todo, s, rfl⟩
  rcases ts with _ | ⟨k, rest⟩
  · rfl
  have rows := frameRow_withProducer h c p r
  cases k with
  | emit es => cases es <;> rfl
  | load row =>
    show ({ State.loadRow (withProducer _ m c p r) row with todo := rest } : State) = _
    simp only [State.loadRow, rows]
    rfl
  | showRow row =>
    show ({ State.loadRow (withProducer _ m c p r) row with todo := .emit (sendRowSeq (rowNumber row)
      (State.frameRow (withProducer _ m c p r) row)) :: rest } : State) = _
    simp only [State.loadRow, rows]
    rfl
  | handoff => exact absurd rfl hts
  | configured => rfl
  | ready => rfl
  | store i v => rfl
  | arm => rfl
  | advance => rfl

theorem sameProducer_act {s : State} (hts : s.todo.head? ≠ some .handoff) : SameProducer s s.act := by
  obtain ⟨ts, u, rfl⟩ : ∃ ts u, s = { u with todo := ts } := ⟨s.todo, s, rfl⟩
  rcases ts with _ | ⟨k, rest⟩
  · constructor <;> rfl
  cases k with
  | handoff => exact absurd rfl hts
  | emit es => cases es <;> constructor <;> rfl
  | _ => constructor <;> rfl

/-- Settles O52: a byte depends on the producer's elements only, which the engine leaves alone outside a handoff, and the
engine on the current frame only, which a byte leaves alone. -/
theorem producerCommutesWithTheEngine : Obligations.ProducerCommutesWithTheEngine := by
  unfold Obligations.ProducerCommutesWithTheEngine
  refine ⟨fun b i s hs roles hi hfault hboundary => ?_, fun b s hs roles hts => ?_⟩
  · obtain ⟨m, c, p, r, current, byte⟩ := exists_byte b hs roles
    obtain ⟨b', rfl⟩ | ⟨plan, hp⟩ := eq_rxByte_or_exists_planOf i s
    · contradiction
    rw [faultOf_eq_planFault hp] at hfault
    cases plan with
    | raises c => contradiction
    | runs ts =>
      have hts := (handoff_of_planOf hp).resolve_right fun hoff => hboundary hoff.1
      have after := byte (s.performAll ts) ((performAll_fault s ts).trans hs) (sameProducer_performAll hts)
      have before := exec_of_planOf_runs (s := withProducer s m c p r) hs ((planOf_withProducer i s m c p r).trans hp)
      rw [performAll_withProducer hts current] at before
      exact ⟨_, runAll_cons_next.2 ⟨_, exec_of_planOf_runs hs hp, runAll_cons_next.2 ⟨_, after, rfl⟩⟩,
        runAll_cons_next.2 ⟨_, byte s hs (sameProducer_refl s), runAll_cons_next.2 ⟨_, before, rfl⟩⟩⟩
  · obtain ⟨m, c, p, r, current, byte⟩ := exists_byte b hs roles
    refine ⟨_, byte s hs (sameProducer_refl s), ?_⟩
    rw [byte s.act ((act_fault s).trans hs) (sameProducer_act hts), act_withProducer hts current]

/-! Bytes inside an operation. -/

/-- The received bytes of an interleaving as operations. -/
def byteOps (cuts : List (Nat × Byte)) : List Instr := cuts.map fun c => .rxByte c.2

theorem exists_runAll_byteOps (cuts : List (Nat × Byte)) {s : State} (hs : s.running) :
    ∃ t, runAll (byteOps cuts) s = .next t := by
  induction cuts generalizing s with
  | nil => exact ⟨s, rfl⟩
  | cons cut cuts ih =>
    obtain ⟨u, hu⟩ := exists_exec_rxByte cut.2 hs
    obtain ⟨t, ht⟩ := ih (fault_eq_none_of_execRxByte hu)
    exact ⟨t, runAll_cons_next.2 ⟨u, hu, ht⟩⟩

theorem handoff_not_mem_act {s : State} (h : .handoff ∉ s.todo) : .handoff ∉ s.act.todo := by
  obtain ⟨ts, u, rfl⟩ : ∃ ts u, s = { u with todo := ts } := ⟨s.todo, s, rfl⟩
  rcases ts with _ | ⟨k, rest⟩
  · exact h
  have later : .handoff ∉ rest := fun hmem => h (List.mem_cons_of_mem k hmem)
  cases k with
  | emit es =>
    cases es with
    | nil => exact later
    | cons e es => exact List.not_mem_cons_of_ne_of_not_mem (by simp) later
  | showRow row => exact List.not_mem_cons_of_ne_of_not_mem (by simp) later
  | _ => exact later

/-- The rest of an operation with no handoff left may be done before a byte as well as after it. -/
theorem finish_withProducer {s : State} (hts : .handoff ∉ s.todo) {m : List Host.Cell} (h : SameCurrent s m) (c : Offset)
    (p : Option Slot) (r : Slot) : (withProducer s m c p r).finish = withProducer s.finish m c p r := by
  show ({ (withProducer s m c p r).performAll s.todo with todo := [] } : State) = _
  rw [performAll_withProducer hts h]
  rfl

theorem sameProducer_finish {s : State} (hts : .handoff ∉ s.todo) : SameProducer s s.finish :=
  have same := sameProducer_performAll (s := s) hts
  ⟨same.mem, same.cursor, same.cur, same.rcv, same.pend⟩

theorem running_finish {s : State} (hs : s.running) : s.finish.running := (performAll_fault s s.todo).trans hs

/-- With no handoff left the bytes inside an operation may as well come after it. -/
theorem interleaved_eq_runAll_finish {cuts : List (Nat × Byte)} {s : State} (hs : s.running) (roles : s.RolesDistinct)
    (hts : .handoff ∉ s.todo) : interleaved cuts s = runAll (byteOps cuts) s.finish := by
  induction cuts generalizing s with
  | nil => rfl
  | cons cut cuts ih =>
    obtain ⟨n, b⟩ := cut
    have aRun : (State.acts n s).running := acts_keep State.running (fun u hu => (act_fault u).trans hu) n s hs
    have aRoles := acts_keep State.RolesDistinct (fun _ => rolesDistinct_act) n s roles
    have aTasks : .handoff ∉ (State.acts n s).todo :=
      acts_keep (fun u => .handoff ∉ u.todo) (fun _ => handoff_not_mem_act) n s hts
    obtain ⟨m, c, p, r, current, byte⟩ := exists_byte b aRun aRoles
    have inside := byte _ aRun (sameProducer_refl _)
    have after := byte _ (running_finish aRun) (sameProducer_finish aTasks)
    have rest := ih (s := withProducer (State.acts n s) m c p r) aRun (rolesDistinct_execRxByte aRoles inside) aTasks
    rw [finish_acts] at after
    rw [finish_withProducer aTasks current, finish_acts] at rest
    simp only [interleaved, inside, rest, byteOps, List.map_cons, runAll_cons after]

/-- An interleaving completes, and leaves what the operation run whole at some place among the bytes leaves. -/
def HasAtomicOrder (i : Instr) (ts : List Task) (cuts : List (Nat × Byte)) (s : State) : Prop :=
  ∃ (t : State) (j : Nat), interleaved cuts { s with todo := ts } = .next t ∧
    runAll (byteOps (cuts.take j) ++ i :: byteOps (cuts.drop j)) s = .next t

/-- An interleaving whose bytes may as well come after the operation. -/
theorem hasAtomicOrder_of_finish {i : Instr} {s : State} {ts : List Task} {cuts : List (Nat × Byte)} (hs : s.running)
    (idle : s.todo = []) (hp : planOf i s = some (.runs ts))
    (after : interleaved cuts { s with todo := ts } = runAll (byteOps cuts) (State.finish { s with todo := ts })) :
    HasAtomicOrder i ts cuts s := by
  rw [finish_start s ts idle] at after
  obtain ⟨t, ht⟩ := exists_runAll_byteOps cuts (s := s.performAll ts) ((performAll_fault s ts).trans hs)
  exact ⟨t, 0, after.trans ht, runAll_cons_next.2 ⟨_, exec_of_planOf_runs hs hp, ht⟩⟩

/-- Settles O53: the bytes that come before the handoff of a boundary tick come before the operation, all others after it. -/
theorem interleavingIsSomeAtomicOrder : Obligations.InterleavingIsSomeAtomicOrder := by
  unfold Obligations.InterleavingIsSomeAtomicOrder
  intro i s ts cuts hs roles idle hp
  show HasAtomicOrder i ts cuts s
  obtain hts | ⟨-, rest, rfl, hrest⟩ := handoff_of_planOf hp
  · exact hasAtomicOrder_of_finish hs idle hp
      (interleaved_eq_runAll_finish hs (rolesDistinct_congr roles rfl rfl rfl) hts)
  induction cuts generalizing s with
  | nil => exact hasAtomicOrder_of_finish hs idle hp rfl
  | cons cut cuts ih =>
    obtain ⟨n, b⟩ := cut
    cases n with
    | zero =>
      obtain ⟨m, c, p, r, _, byte⟩ := exists_byte b hs roles
      have before := byte s hs (sameProducer_refl s)
      have inside := byte { s with todo := .handoff :: rest } hs ⟨rfl, rfl, rfl, rfl, rfl⟩
      obtain ⟨t, j, inter, run⟩ := ih (withProducer s m c p r) hs (rolesDistinct_execRxByte roles before) idle
        ((planOf_withProducer i s m c p r).trans hp)
      refine ⟨t, j + 1, ?_, runAll_cons_next.2 ⟨_, before, run⟩⟩
      rw [interleaved, State.acts, inside]
      exact inter
    | succ n =>
      refine hasAtomicOrder_of_finish hs idle hp ?_
      rw [← finish_act]
      exact interleaved_eq_runAll_finish (cuts := (n, b) :: cuts) (s := State.act { s with todo := .handoff :: rest })
        ((act_fault _).trans hs) (rolesDistinct_act (rolesDistinct_congr roles rfl rfl rfl)) hrest

end Sys2Proof.Machine.ConcurrencyProofs
end
